-- ==== Sys2Proof/Word.lean ====
section
/-! DEFINITION. The two units of storage of SimpleVM: the Word and the Byte. -/

namespace Sys2Proof

/-- A Word (R7, R8): 32 bits in two's complement; `BitVec.toInt` is its signed value. -/
abbrev Word := BitVec 32

/-- A byte of data memory (R29), unsigned in [0, 255]. -/
abbrev Byte := BitVec 8

end Sys2Proof
end

