-- ==== Sys2Proof/Config.lean ====
section
/-! DEFINITION. The implementation parameters of `00_scope.md` R6, each at the spec's default. -/

namespace Sys2Proof.Config

/-- `MEM_SIZE` (R6, R29): the number of bytes of data memory. -/
abbrev memSize : Nat := 65536

/-- `STACK_USABLE` (R6, R30): the greatest number of live call-stack entries. -/
abbrev stackUsable : Nat := 255

/-- `BYTE_MAX` (R6, R128): the greatest value a byte write accepts. -/
abbrev byteMax : Int := 127

/-- `BYTE_MIN` (R6, R128): the least value a byte write accepts. -/
abbrev byteMin : Int := -128

/-- The greatest `PLEN` (R6, R28): 2^31 - 2. -/
abbrev maxPlen : Nat := 2147483646

/-- `CMP_REG_ORDER` (`93_implementation_defined.md` item 10): which way CMP_REG reports GREATER. -/
inductive CmpRegOrder where
  /-- GREATER when the second register is the greater one (the default, R115). -/
  | secondGeFirst
  /-- GREATER when the first register is the greater one (the alternative). -/
  | firstGtSecond
  deriving DecidableEq, Repr

end Sys2Proof.Config
end

