-- ==== Sys2Proof/Syntax.lean ====
section
/-! DEFINITION. The instruction set: one constructor per row of `spec/opcode_table.json`. -/

namespace Sys2Proof

/-- The 42 instructions (R68, R69). Every operand is a whole Word as the program holds it (R66): the decoder accepts
every value (R72), and the handler decides whether it names a register, an address or a system call. -/
inductive Instr where
  | movDword (rd imm : Word)
  | movReg (rd rs : Word)
  | addDword (rd imm : Word)
  | addReg (rd rs : Word)
  | subDword (rd imm : Word)
  | subReg (rd rs : Word)
  | mulDword (rd imm : Word)
  | mulReg (rd rs : Word)
  | divDword (rd imm : Word)
  | divReg (rd rs : Word)
  | xorDword (rd imm : Word)
  | xorReg (rd rs : Word)
  | orDword (rd imm : Word)
  | orReg (rd rs : Word)
  | andDword (rd imm : Word)
  | andReg (rd rs : Word)
  | notDword (rd imm : Word)
  | notReg (rd rs : Word)
  | inc (rd : Word)
  | dec (rd : Word)
  | cmpDword (rd imm : Word)
  | cmpReg (rd rs : Word)
  | label (id : Word)
  | jmp (off : Word)
  | je (off : Word)
  | jne (off : Word)
  | jg (off : Word)
  | jb (off : Word)
  | call (tgt : Word)
  | retn
  | writeByteDword (addr imm : Word)
  | writeByteReg (ra rv : Word)
  | writeWordDword (addr imm : Word)
  | writeWordReg (ra rv : Word)
  | readByteDword (rd addr : Word)
  | readByteReg (rd ra : Word)
  | readWordDword (rd addr : Word)
  | readWordReg (rd ra : Word)
  | push (rd : Word)
  | pop (rd : Word)
  | halt
  | int (id : Word)
  deriving DecidableEq, Repr

end Sys2Proof
end

