-- ==== Sys2Proof/WellFormed.lean ====
section
/-! DEFINITION. Which instructions are well-formed: those that fail none of the checks a handler makes on the operand
words alone. An ill-formed instruction still decodes, encodes and executes (R72): its execution raises the fault. -/

namespace Sys2Proof

/-- The word is a register index, 0 to 8 (R15). -/
def isRegIndex (w : Word) : Bool := decide (0 ≤ w.toInt) && decide (w.toInt ≤ 8)

/-- The word is in byte bounds (R43). -/
def isByteAddr (w : Word) : Bool := decide (0 ≤ w.toInt) && decide (w.toInt ≤ 65535)

/-- The word is in word bounds (R43). -/
def isWordAddr (w : Word) : Bool := decide (0 ≤ w.toInt) && decide (w.toInt ≤ 65532)

/-- The word is a value that a byte write accepts (R128). -/
def isByteValue (w : Word) : Bool := decide (Config.byteMin ≤ w.toInt) && decide (w.toInt ≤ Config.byteMax)

/-- The word is a system-call id, 0 to 5 (R142). -/
def isSyscallId (w : Word) : Bool := decide (0 ≤ w.toInt) && decide (w.toInt ≤ 5)

/-- The checks on operand words: register indices (R15), the addresses and the byte value of DWORD memory forms
(R43, R128), the immediate divisor (R97) and the system-call id (R142). -/
def Instr.wellFormed : Instr → Bool
  | .movDword rd _ | .addDword rd _ | .subDword rd _ | .mulDword rd _ => isRegIndex rd
  | .movReg rd rs | .addReg rd rs | .subReg rd rs | .mulReg rd rs | .divReg rd rs => isRegIndex rd && isRegIndex rs
  | .divDword rd imm => isRegIndex rd && decide (imm ≠ 0)
  | .xorDword rd _ | .orDword rd _ | .andDword rd _ | .notDword rd _ => isRegIndex rd
  | .xorReg rd rs | .orReg rd rs | .andReg rd rs | .notReg rd rs => isRegIndex rd && isRegIndex rs
  | .inc rd | .dec rd => isRegIndex rd
  | .cmpDword rd _ => isRegIndex rd
  | .cmpReg rd rs => isRegIndex rd && isRegIndex rs
  | .label _ | .jmp _ | .je _ | .jne _ | .jg _ | .jb _ | .call _ | .retn => true
  | .writeByteDword addr imm => isByteAddr addr && isByteValue imm
  | .writeByteReg ra rv => isRegIndex ra && isRegIndex rv
  | .writeWordDword addr _ => isWordAddr addr
  | .writeWordReg ra rv => isRegIndex ra && isRegIndex rv
  | .readByteDword rd addr => isRegIndex rd && isByteAddr addr
  | .readByteReg rd ra => isRegIndex rd && isRegIndex ra
  | .readWordDword rd addr => isRegIndex rd && isWordAddr addr
  | .readWordReg rd ra => isRegIndex rd && isRegIndex ra
  | .push rd | .pop rd => isRegIndex rd
  | .halt => true
  | .int id => isSyscallId id

end Sys2Proof
end

