-- ==== Sys2Proof/Decode.lean ====
section
/-! DEFINITION. The decoder and the encoder of the word stream (`30_encoding.md`). A program is a sequence of whole
Words (R62), so both work on lists of Words; instruction fetch has no byte order (R42). -/

namespace Sys2Proof

/-- The 42 opcodes, in the order of the table of R69. -/
inductive Opcode where
  | movDword | movReg | addDword | addReg | subDword | subReg | mulDword | mulReg | divDword | divReg
  | xorDword | xorReg | orDword | orReg | andDword | andReg | notDword | notReg | inc | dec | cmpDword
  | cmpReg | label | jmp | je | jne | jg | jb | call | retn | writeByteDword | writeByteReg | writeWordDword
  | writeWordReg | readByteDword | readByteReg | readWordDword | readWordReg | push | pop | halt | int
  deriving DecidableEq, Repr

/-- Every opcode, once. -/
def Opcode.all : List Opcode :=
  [.movDword, .movReg, .addDword, .addReg, .subDword, .subReg, .mulDword, .mulReg, .divDword, .divReg,
   .xorDword, .xorReg, .orDword, .orReg, .andDword, .andReg, .notDword, .notReg, .inc, .dec, .cmpDword,
   .cmpReg, .label, .jmp, .je, .jne, .jg, .jb, .call, .retn, .writeByteDword, .writeByteReg, .writeWordDword,
   .writeWordReg, .readByteDword, .readByteReg, .readWordDword, .readWordReg, .push, .pop, .halt, .int]

/-- The six instruction formats of R65. -/
inductive Format where
  | Z | R | I | RI | RR | II
  deriving DecidableEq, Repr

/-- The number of operand Words of a format (R62, R65). -/
def Format.operands : Format → Nat
  | .Z => 0
  | .R | .I => 1
  | .RI | .RR | .II => 2

/-- The format of each opcode (R65, R69). -/
def Opcode.format : Opcode → Format
  | .retn | .halt => .Z
  | .inc | .dec | .push | .pop => .R
  | .label | .jmp | .je | .jne | .jg | .jb | .call | .int => .I
  | .movDword | .addDword | .subDword | .mulDword | .divDword | .xorDword | .orDword | .andDword
  | .notDword | .cmpDword | .readByteDword | .readWordDword => .RI
  | .movReg | .addReg | .subReg | .mulReg | .divReg | .xorReg | .orReg | .andReg | .notReg | .cmpReg
  | .writeByteReg | .writeWordReg | .readByteReg | .readWordReg => .RR
  | .writeByteDword | .writeWordDword => .II

/-- The Instruction Set Table's operand count `k` (R63, R70). -/
def Opcode.operandCount (o : Opcode) : Nat := o.format.operands

/-- `OPCODE_MAP` with the default values of R69. -/
def Opcode.word : Opcode → Word
  | .movDword => 1
  | .movReg => 2
  | .addDword => 3
  | .addReg => 4
  | .subDword => 5
  | .subReg => 6
  | .mulDword => 7
  | .mulReg => 8
  | .divDword => 9
  | .divReg => 10
  | .xorDword => 11
  | .xorReg => 12
  | .orDword => 13
  | .orReg => 14
  | .andDword => 15
  | .andReg => 16
  | .notDword => 17
  | .notReg => 18
  | .inc => 19
  | .dec => 20
  | .cmpDword => 21
  | .cmpReg => 22
  | .label => 23
  | .jmp => 24
  | .je => 25
  | .jne => 26
  | .jg => 27
  | .jb => 28
  | .call => 29
  | .retn => 30
  | .writeByteDword => 31
  | .writeByteReg => 32
  | .writeWordDword => 33
  | .writeWordReg => 34
  | .readByteDword => 35
  | .readByteReg => 36
  | .readWordDword => 37
  | .readWordReg => 38
  | .push => 39
  | .pop => 40
  | .halt => 41
  | .int => 42

/-- The opcode of an instruction. -/
def Instr.opcode : Instr → Opcode
  | .movDword _ _ => .movDword
  | .movReg _ _ => .movReg
  | .addDword _ _ => .addDword
  | .addReg _ _ => .addReg
  | .subDword _ _ => .subDword
  | .subReg _ _ => .subReg
  | .mulDword _ _ => .mulDword
  | .mulReg _ _ => .mulReg
  | .divDword _ _ => .divDword
  | .divReg _ _ => .divReg
  | .xorDword _ _ => .xorDword
  | .xorReg _ _ => .xorReg
  | .orDword _ _ => .orDword
  | .orReg _ _ => .orReg
  | .andDword _ _ => .andDword
  | .andReg _ _ => .andReg
  | .notDword _ _ => .notDword
  | .notReg _ _ => .notReg
  | .inc _ => .inc
  | .dec _ => .dec
  | .cmpDword _ _ => .cmpDword
  | .cmpReg _ _ => .cmpReg
  | .label _ => .label
  | .jmp _ => .jmp
  | .je _ => .je
  | .jne _ => .jne
  | .jg _ => .jg
  | .jb _ => .jb
  | .call _ => .call
  | .retn => .retn
  | .writeByteDword _ _ => .writeByteDword
  | .writeByteReg _ _ => .writeByteReg
  | .writeWordDword _ _ => .writeWordDword
  | .writeWordReg _ _ => .writeWordReg
  | .readByteDword _ _ => .readByteDword
  | .readByteReg _ _ => .readByteReg
  | .readWordDword _ _ => .readWordDword
  | .readWordReg _ _ => .readWordReg
  | .push _ => .push
  | .pop _ => .pop
  | .halt => .halt
  | .int _ => .int

/-- The operand Words of an instruction, in stream order (R65). -/
def Instr.operands : Instr → List Word
  | .movDword rd imm => [rd, imm]
  | .movReg rd rs => [rd, rs]
  | .addDword rd imm => [rd, imm]
  | .addReg rd rs => [rd, rs]
  | .subDword rd imm => [rd, imm]
  | .subReg rd rs => [rd, rs]
  | .mulDword rd imm => [rd, imm]
  | .mulReg rd rs => [rd, rs]
  | .divDword rd imm => [rd, imm]
  | .divReg rd rs => [rd, rs]
  | .xorDword rd imm => [rd, imm]
  | .xorReg rd rs => [rd, rs]
  | .orDword rd imm => [rd, imm]
  | .orReg rd rs => [rd, rs]
  | .andDword rd imm => [rd, imm]
  | .andReg rd rs => [rd, rs]
  | .notDword rd imm => [rd, imm]
  | .notReg rd rs => [rd, rs]
  | .inc rd => [rd]
  | .dec rd => [rd]
  | .cmpDword rd imm => [rd, imm]
  | .cmpReg rd rs => [rd, rs]
  | .label id => [id]
  | .jmp off => [off]
  | .je off => [off]
  | .jne off => [off]
  | .jg off => [off]
  | .jb off => [off]
  | .call tgt => [tgt]
  | .retn => []
  | .writeByteDword addr imm => [addr, imm]
  | .writeByteReg ra rv => [ra, rv]
  | .writeWordDword addr imm => [addr, imm]
  | .writeWordReg ra rv => [ra, rv]
  | .readByteDword rd addr => [rd, addr]
  | .readByteReg rd ra => [rd, ra]
  | .readWordDword rd addr => [rd, addr]
  | .readWordReg rd ra => [rd, ra]
  | .push rd => [rd]
  | .pop rd => [rd]
  | .halt => []
  | .int id => [id]

/-- The instruction of an opcode whose operand Words are `o1` and `o2`; an opcode that takes fewer ignores the rest. -/
def Opcode.build (o : Opcode) (o1 o2 : Word) : Instr :=
  match o with
  | .movDword => .movDword o1 o2
  | .movReg => .movReg o1 o2
  | .addDword => .addDword o1 o2
  | .addReg => .addReg o1 o2
  | .subDword => .subDword o1 o2
  | .subReg => .subReg o1 o2
  | .mulDword => .mulDword o1 o2
  | .mulReg => .mulReg o1 o2
  | .divDword => .divDword o1 o2
  | .divReg => .divReg o1 o2
  | .xorDword => .xorDword o1 o2
  | .xorReg => .xorReg o1 o2
  | .orDword => .orDword o1 o2
  | .orReg => .orReg o1 o2
  | .andDword => .andDword o1 o2
  | .andReg => .andReg o1 o2
  | .notDword => .notDword o1 o2
  | .notReg => .notReg o1 o2
  | .inc => .inc o1
  | .dec => .dec o1
  | .cmpDword => .cmpDword o1 o2
  | .cmpReg => .cmpReg o1 o2
  | .label => .label o1
  | .jmp => .jmp o1
  | .je => .je o1
  | .jne => .jne o1
  | .jg => .jg o1
  | .jb => .jb o1
  | .call => .call o1
  | .retn => .retn
  | .writeByteDword => .writeByteDword o1 o2
  | .writeByteReg => .writeByteReg o1 o2
  | .writeWordDword => .writeWordDword o1 o2
  | .writeWordReg => .writeWordReg o1 o2
  | .readByteDword => .readByteDword o1 o2
  | .readByteReg => .readByteReg o1 o2
  | .readWordDword => .readWordDword o1 o2
  | .readWordReg => .readWordReg o1 o2
  | .push => .push o1
  | .pop => .pop o1
  | .halt => .halt
  | .int => .int o1

/-- Why a word sequence is not an instruction. -/
inductive DecodeError where
  /-- There is no opcode Word. -/
  | noWords
  /-- The opcode Word is not in `OPCODE_MAP` (R71). -/
  | illegalOpcode (op : Word)
  /-- Operand Word number `missing` (1 or 2) lies past the end of the program (R64). -/
  | truncated (missing : Nat)
  deriving DecidableEq, Repr

/-- The opcode that a Word stands for under an opcode map (R69, R71). -/
def lookupOpcode (map : Opcode → Word) (w : Word) : Option Opcode :=
  Opcode.all.find? (fun o => decide (map o = w))

/-- The decode of R64 under any opcode map: the first instruction of a word sequence and the Words after it. -/
def decodeWith (map : Opcode → Word) : List Word → Except DecodeError (Instr × List Word)
  | [] => .error .noWords
  | op :: rest =>
    match lookupOpcode map op with
    | none => .error (.illegalOpcode op)
    | some o =>
      match o.operandCount, rest with
      | 0, rest => .ok (o.build 0 0, rest)
      | 1, [] => .error (.truncated 1)
      | 1, o1 :: rest => .ok (o.build o1 0, rest)
      | _, [] => .error (.truncated 1)
      | _, [_] => .error (.truncated 2)
      | _, o1 :: o2 :: rest => .ok (o.build o1 o2, rest)

/-- The decoder, with the default `OPCODE_MAP`. -/
def decode (ws : List Word) : Except DecodeError (Instr × List Word) := decodeWith Opcode.word ws

/-- The encoder under any opcode map: the opcode Word, then the operand Words (R62, R65). -/
def encodeWith (map : Opcode → Word) (i : Instr) : List Word := map i.opcode :: i.operands

/-- The encoder, with the default `OPCODE_MAP`. -/
def encode (i : Instr) : List Word := encodeWith Opcode.word i

/-- The three Words (the longest instruction) that an instruction numbered as the opcode table numbers its bits
stands for: the first Word is bits 31..0, and every bit from `nbits` up is 0. -/
def tableWords (nbits w : Nat) : List Word :=
  let v := w % 2 ^ nbits
  [BitVec.ofNat 32 v, BitVec.ofNat 32 (v / 2 ^ 32), BitVec.ofNat 32 (v / 2 ^ 64)]

/-- The instruction the decoder reads from a row of the opcode table. -/
def decodeTableWord (nbits w : Nat) : Option Instr :=
  match decode (tableWords nbits w) with
  | .ok (i, _) => some i
  | .error _ => none

end Sys2Proof
end

