-- ==== Sys2Proof/Machine/State.lean ====
section
/-! DEFINITION. The machine's state: everything `10_state.md` gives it, as plain data, and its value at reset (R161). -/

namespace Sys2Proof.Machine

/-- The nine registers of R12 and R13. -/
inductive Reg where
  | r1 | r2 | r3 | r4 | r5 | r6 | rbp | rsp | rip
  deriving DecidableEq, Repr

/-- The register file (R12): nine Words. `rip` is the instruction pointer `ip`, one storage (R18). -/
structure RegFile where
  r1 : Word
  r2 : Word
  r3 : Word
  r4 : Word
  r5 : Word
  r6 : Word
  rbp : Word
  rsp : Word
  rip : Word
  deriving DecidableEq, Repr

/-- The five condition flags (R22), in the order of R23. -/
structure Flags where
  overflow : Bool
  underflow : Bool
  greater : Bool
  lower : Bool
  equal : Bool
  deriving DecidableEq, Repr

/-- A sparse store of `w`-bit cells keyed by index, in one canonical form (`Cells.wf`): indices strictly rising, no
entry equal to what an unlisted index reads as. -/
abbrev Cells (w : Nat) := List (Nat × BitVec w)

/-- Data memory (R29): the bytes that are not at their reset value 0. -/
abbrev Memory := List Host.Cell

/-- The call stack (R30, R36): the depth `sp` and the 256 slots of the source's array, which keep stale values above
`sp`. Slots that are not at their reset value 0 are listed. -/
structure CallStack where
  sp : Nat
  slots : Cells 32
  deriving DecidableEq, Repr

/-- The ten fault causes of R147. -/
inductive FaultCause where
  | illegalOpcode | fetchRange | registerIndex | memoryBounds | byteRange
  | stackOverflow | stackUnderflow | divideByZero | syscallId | syscallIo
  deriving DecidableEq, Repr

/-- The five system calls that the host answers (R143, ids 0 to 4). -/
inductive HostCall where
  | readLine | writeLine | readFileByte | writeFileByte | fileSize
  deriving DecidableEq, Repr

/-- The request `(id, s, x[0], x[1], x[2], ip0)` that a blocked INT offers to the host (R37, R142). -/
structure Request where
  call : HostCall
  text : List Byte
  arg1 : Word
  arg2 : Word
  arg3 : Word
  ip0 : Word
  deriving DecidableEq, Repr

/-- What the host may answer (R144). -/
inductive Response where
  /-- The call failed (any of ids 0 to 4). -/
  | fail
  /-- The line read (id 0). -/
  | line (bytes : List Byte)
  /-- The file byte or the file size (ids 2 and 4). -/
  | word (w : Word)
  /-- The call is done (ids 1 and 3). -/
  | done
  deriving DecidableEq, Repr

/-- The run status of R34. -/
inductive Status where
  | running
  | blocked (req : Request)
  | halted
  | faulted (cause : FaultCause) (info : Word) (faultIp : Word)
  deriving DecidableEq, Repr

/-- The whole state of the engine. `hostAnswers` is the model's own field: the responses the host has given to the
system-call port and that the engine has not yet taken, first one first (log entry 2). -/
structure State where
  regs : RegFile
  flags : Flags
  mem : Memory
  stack : CallStack
  program : List Word
  status : Status
  hostAnswers : List Response
  deriving DecidableEq, Repr

/-- The reasons a step can stop. The spec's own faults (R147) are no stop: fault entry is a next state whose status is
`Status.faulted` (R149). -/
inductive Fault where
  /-- Raised by the response step when the host's answer does not have the shape R144 gives for the call. The spec
  constrains the host to that shape and gives the other answers no effect. Safe: the model stops where the spec says
  nothing can happen (log entry 3). -/
  | hostProtocol
  deriving DecidableEq, Repr

/-- The reasons the model refuses. -/
inductive Refusal where
  /-- Raised by `exec` for an instruction that has no meaning in the model. Safe. No arm answers it. -/
  | notModelled (mnemonic : String)
  /-- Raised by `State.load` for a program longer than 2^31 - 2 Words, which R28 says is refused at load. Safe. -/
  | programTooLong
  deriving DecidableEq, Repr

/-- The machine right after reset with no program loaded: every field at the value of R161; `PLEN` is 0 (log
entry 1), and the host has answered nothing yet (log entry 2). -/
def State.reset : State where
  regs := { r1 := 0, r2 := 0, r3 := 0, r4 := 0, r5 := 0, r6 := 0, rbp := 0, rsp := 0, rip := 0 }
  flags := { overflow := false, underflow := false, greater := false, lower := false, equal := false }
  mem := []
  stack := { sp := 0, slots := [] }
  program := []
  status := .running
  hostAnswers := []

end Sys2Proof.Machine
end

