-- ==== Sys2Proof/Machine/Ops.lean ====
section
/-! DEFINITION. The named operations over registers, memory, the call stack and the run status. -/

namespace Sys2Proof.Machine

/-- What `exec` and `step` answer. -/
abbrev StepOutcome := Host.Outcome State Fault Refusal

/-! ## Word arithmetic -/

/-- `wrap32` (R7): the Word congruent to an integer modulo 2^32. -/
def wrap32 (n : Int) : Word := BitVec.ofInt 32 n

/-- `sext_8` (R9). -/
def sext8 (b : Byte) : Word := b.signExtend 32

/-! ## Registers -/

/-- The register index of R13, as an operand Word. -/
def Reg.index : Reg → Word
  | .r1 => 0
  | .r2 => 1
  | .r3 => 2
  | .r4 => 3
  | .r5 => 4
  | .r6 => 5
  | .rbp => 6
  | .rsp => 7
  | .rip => 8

/-- Read a register of the file (R14). -/
def RegFile.get (f : RegFile) : Reg → Word
  | .r1 => f.r1
  | .r2 => f.r2
  | .r3 => f.r3
  | .r4 => f.r4
  | .r5 => f.r5
  | .r6 => f.r6
  | .rbp => f.rbp
  | .rsp => f.rsp
  | .rip => f.rip

/-- Write a register of the file (R14). -/
def RegFile.set (f : RegFile) (r : Reg) (v : Word) : RegFile :=
  match r with
  | .r1 => { f with r1 := v }
  | .r2 => { f with r2 := v }
  | .r3 => { f with r3 := v }
  | .r4 => { f with r4 := v }
  | .r5 => { f with r5 := v }
  | .r6 => { f with r6 := v }
  | .rbp => { f with rbp := v }
  | .rsp => { f with rsp := v }
  | .rip => { f with rip := v }

/-- `x[i]`. -/
def State.reg (s : State) (r : Reg) : Word := s.regs.get r

/-- `x[i] <- v`; on `rip` it sets the instruction pointer (R18). -/
def State.setReg (s : State) (r : Reg) (v : Word) : State := { s with regs := s.regs.set r v }

/-- The instruction pointer `ip`, register 8 (R18). -/
abbrev State.ip (s : State) : Word := s.reg .rip

/-- `ip <- v`. -/
def State.setIp (s : State) (v : Word) : State := s.setReg .rip v

/-- Write all five flags. -/
def State.setFlags (s : State) (f : Flags) : State := { s with flags := f }

/-- `PLEN` (R27). -/
abbrev State.plen (s : State) : Nat := s.program.length

/-! ## Sparse stores -/

/-- What an index that is not listed reads as: the reset value 0 of memory bytes and stack slots (R161). -/
def Cells.unlisted (w : Nat) : BitVec w := 0

/-- Read a cell. -/
def Cells.read {w : Nat} : Cells w → Nat → BitVec w
  | [], _ => Cells.unlisted w
  | (b, v) :: m, a => if b = a then v else Cells.read m a

/-- Insert an entry before the first entry of a greater index. -/
def Cells.insert {w : Nat} (a : Nat) (v : BitVec w) : Cells w → Cells w
  | [] => [(a, v)]
  | (b, u) :: m => if a < b then (a, v) :: (b, u) :: m else (b, u) :: Cells.insert a v m

/-- Write a cell, keeping the canonical form: writing what an unlisted cell reads as removes the entry. -/
def Cells.write {w : Nat} (m : Cells w) (a : Nat) (v : BitVec w) : Cells w :=
  let rest := m.filter (fun c => decide (c.1 ≠ a))
  if v = Cells.unlisted w then rest else Cells.insert a v rest

/-- The canonical form, with every index in `[lo, hi)`. -/
abbrev Cells.wf {w : Nat} (m : Cells w) (lo hi : Nat) : Prop :=
  m.Pairwise (fun c d => c.1 < d.1) ∧ ∀ c ∈ m, c.2 ≠ Cells.unlisted w ∧ lo ≤ c.1 ∧ c.1 < hi

/-! ## Data memory (`20_memory.md`) -/

/-- The canonical form of data memory, addresses 0 to 65535. -/
abbrev Memory.wf (m : Memory) : Prop := Cells.wf m 0 Config.memSize

/-- `M[a]`. -/
def Memory.byte (m : Memory) (a : Nat) : Byte := Cells.read m a

/-- `M[a] <- b`. -/
def Memory.setByte (m : Memory) (a : Nat) (b : Byte) : Memory := Cells.write m a b

/-- The big-endian Word at `a` (R42, R45). -/
def Memory.word (m : Memory) (a : Nat) : Word :=
  wrap32 (((m.byte a).toNat * 2 ^ 24 + (m.byte (a + 1)).toNat * 2 ^ 16 + (m.byte (a + 2)).toNat * 2 ^ 8
    + (m.byte (a + 3)).toNat : Nat) : Int)

/-- Byte `j` of a Word, byte 0 the most significant: `v[31-8j : 24-8j]` (R47). -/
def wordByte (v : Word) (j : Nat) : Byte := v.extractLsb' (24 - 8 * j) 8

/-- The big-endian store of R47. -/
def Memory.setWord (m : Memory) (a : Nat) (v : Word) : Memory :=
  (((m.setByte a (wordByte v 0)).setByte (a + 1) (wordByte v 1)).setByte (a + 2) (wordByte v 2)).setByte (a + 3)
    (wordByte v 3)

/-- Store a byte sequence at rising addresses (R50). -/
def Memory.setBytes (m : Memory) (a : Nat) : List Byte → Memory
  | [] => m
  | b :: bs => Memory.setBytes (m.setByte a b) (a + 1) bs

/-- The bytes from `a` up to the first 0 byte, looking at `n` addresses; `none` when no 0 byte is among them (R49). -/
def Memory.scan (m : Memory) : Nat → Nat → Option (List Byte)
  | 0, _ => none
  | n + 1, a => if m.byte a = 0 then some [] else (Memory.scan m n (a + 1)).map (fun bs => m.byte a :: bs)

/-- A byte access at `a` is in bounds (R43). -/
abbrev byteInBounds (a : Word) : Prop := 0 ≤ a.toInt ∧ a.toInt ≤ 65535

/-- A word access at `a` is in bounds (R43). -/
abbrev wordInBounds (a : Word) : Prop := 0 ≤ a.toInt ∧ a.toInt ≤ 65532

/-- `S(a)`, the null-terminated string at `a`, or the info Word of the `MEMORY_BOUNDS` fault it raises (R49). -/
def Memory.string (m : Memory) (a : Word) : Except Word (List Byte) :=
  if byteInBounds a then
    match m.scan (Config.memSize - a.toNat) a.toNat with
    | some bs => .ok bs
    | none => .error 65536
  else .error a

/-- The line `bs` and its terminator fit in memory at `a` (R50). -/
abbrev lineFits (a : Word) (bs : List Byte) : Prop := 0 ≤ a.toInt ∧ a.toInt + bs.length ≤ 65535

/-- The write of `WriteLine(a, L)`: the line's bytes, then a 0 byte (R50). -/
def Memory.setLine (m : Memory) (a : Nat) (bs : List Byte) : Memory := m.setBytes a (bs ++ [0])

/-! ## The call stack (R30 to R33) -/

/-- The depth is at most 255, slot 0 is unused, and the slots are in canonical form. -/
abbrev CallStack.wf (st : CallStack) : Prop := st.sp ≤ Config.stackUsable ∧ Cells.wf st.slots 1 256

/-- `E[n]`. -/
def CallStack.slot (st : CallStack) (n : Nat) : Word := Cells.read st.slots n

/-- The store of `Push(v)`: `sp <- sp + 1; E[sp] <- v` (R31). -/
def CallStack.push (st : CallStack) (v : Word) : CallStack :=
  { sp := st.sp + 1, slots := Cells.write st.slots (st.sp + 1) v }

/-- `E[sp]`, what `Pop()` returns (R32). -/
def CallStack.top (st : CallStack) : Word := st.slot st.sp

/-- The stack after `Pop()`: the entry itself is not cleared (R32). -/
def CallStack.pop (st : CallStack) : CallStack := { st with sp := st.sp - 1 }

/-! ## Handlers, faults and the end of an instruction -/

/-- Fault entry (R149): the status becomes `FAULTED(cause, info, ip0)`, `ip` is set back to `ip0`, and nothing else
changes. It is applied to the state before the instruction, so nothing of the instruction has happened (R150). There
is no return from a fault (R151). -/
def State.takeFault (s : State) (cause : FaultCause) (info ip0 : Word) : State :=
  { s.setIp ip0 with status := .faulted cause info ip0 }

/-- How a handler ends (R165). -/
inductive HandlerResult where
  /-- It completed with this state. -/
  | done (s : State)
  /-- It blocked on a system call, with this state. -/
  | blocked (s : State)
  /-- It raised a fault. -/
  | raised (cause : FaultCause) (info : Word)

/-- The part of the step of R165 after the fetch, from the state at the instruction boundary: `ip <- ip0 + k`, the
handler, then `ip <- wrap32(ip + 1)` unless it blocked, or fault entry if it raised one. -/
def runHandler (o : Opcode) (h : State → HandlerResult) (s : State) : StepOutcome :=
  match h (s.setIp (s.ip + BitVec.ofNat 32 o.operandCount)) with
  | .done t => .next (t.setIp (t.ip + 1))
  | .blocked t => .next t
  | .raised cause info => .next (s.takeFault cause info s.ip)

/-- `FAULT_CODES` (R147). -/
def FaultCause.code : FaultCause → Nat
  | .illegalOpcode => 1
  | .fetchRange => 2
  | .registerIndex => 3
  | .memoryBounds => 4
  | .byteRange => 5
  | .stackOverflow => 6
  | .stackUnderflow => 7
  | .divideByZero => 8
  | .syscallId => 9
  | .syscallIo => 10

/-- The function id of a system call that the host answers (R143). -/
def HostCall.id : HostCall → Word
  | .readLine => 0
  | .writeLine => 1
  | .readFileByte => 2
  | .writeFileByte => 3
  | .fileSize => 4

end Sys2Proof.Machine
end

