-- ==== Sys2Proof/Machine/Flags.lean ====
section
/-! DEFINITION. Every flag computation of the spec (R24): functions of exact integers and of the flags before. -/

namespace Sys2Proof.Machine

/-- ADD and SUB, on the exact result (R86): all five flags written. -/
def addSubFlags (r : Int) : Flags where
  overflow := decide (2 ^ 31 - 1 < r)
  underflow := decide (r < -2 ^ 31)
  greater := false
  lower := false
  equal := false

/-- MUL, on the exact product (R93): all five flags written. -/
def mulFlags (p : Int) : Flags where
  overflow := decide (2 ^ 31 - 1 < p ∨ p < -2 ^ 31)
  underflow := false
  greater := false
  lower := false
  equal := false

/-- INC of `a` (R110): OVERFLOW alone is written. -/
def incFlags (a : Word) (f : Flags) : Flags := { f with overflow := decide (a.toInt = 2 ^ 31 - 1) }

/-- DEC of `a` (R111): UNDERFLOW alone is written. -/
def decFlags (a : Word) (f : Flags) : Flags := { f with underflow := decide (a.toInt = -2 ^ 31) }

/-- The update both CMP forms share (R113): GREATER, LOWER and EQUAL cleared, then EQUAL set if `a = b`, else GREATER
if `gt`, else LOWER; OVERFLOW and UNDERFLOW kept. -/
def compareFlags (a b : Word) (gt : Bool) (f : Flags) : Flags :=
  let cleared := { f with greater := false, lower := false, equal := false }
  if a = b then { cleared with equal := true }
  else if gt then { cleared with greater := true }
  else { cleared with lower := true }

/-- CMP_DWORD (R114): GREATER means the register is greater than the immediate. -/
def cmpDwordFlags (a imm : Word) (f : Flags) : Flags := compareFlags a imm (decide (imm.toInt < a.toInt)) f

/-- CMP_REG under either `CMP_REG_ORDER` (R115, `93_implementation_defined.md` item 10). -/
def cmpRegFlagsIn (order : Config.CmpRegOrder) (a b : Word) (f : Flags) : Flags :=
  match order with
  | .secondGeFirst => compareFlags a b (decide (a.toInt ≤ b.toInt)) f
  | .firstGtSecond => compareFlags a b (decide (b.toInt < a.toInt)) f

/-- The value of `CMP_REG_ORDER`: the spec's default (R115). -/
def cmpRegOrder : Config.CmpRegOrder := .secondGeFirst

/-- CMP_REG (R115). -/
def cmpRegFlags (a b : Word) (f : Flags) : Flags := cmpRegFlagsIn cmpRegOrder a b f

end Sys2Proof.Machine
end

