-- ==== Sys2Proof/Machine/Operands.lean ====
section
/-! DEFINITION. The operand forms: the register-index check (R15), the two ALU operand fetches (R83) and the checked
memory and stack accesses. -/

namespace Sys2Proof.Machine

/-- The register that an operand Word names, or `none` when it is not in 0..8 (R13, R15). -/
def checkReg (i : Word) : Option Reg :=
  match i.toNat with
  | 0 => some .r1
  | 1 => some .r2
  | 2 => some .r3
  | 3 => some .r4
  | 4 => some .r5
  | 5 => some .r6
  | 6 => some .rbp
  | 7 => some .rsp
  | 8 => some .rip
  | _ => none

/-- Continue with the register that `i` names, or raise `REGISTER_INDEX` (R15). -/
def withReg (i : Word) (k : Reg → HandlerResult) : HandlerResult :=
  match checkReg i with
  | some r => k r
  | none => .raised .registerIndex i

/-- What a two-operand ALU operation does: destination, operand values `a` and `b`, state (R84). -/
abbrev AluOp := Reg → Word → Word → State → HandlerResult

/-- The DWORD operand fetch (R83): `a` is the register, `b` the immediate. -/
def dwordForm (rd imm : Word) (op : AluOp) (s : State) : HandlerResult :=
  withReg rd fun d => op d (s.reg d) imm s

/-- The REG operand fetch (R83): both indices are checked in order, then both registers read. -/
def regForm (rd rs : Word) (op : AluOp) (s : State) : HandlerResult :=
  withReg rd fun d => withReg rs fun r => op d (s.reg d) (s.reg r) s

/-- The one-register fetch of format `R` (R65): INC, DEC, PUSH, POP. -/
def unaryForm (rd : Word) (op : Reg → State → HandlerResult) (s : State) : HandlerResult :=
  withReg rd fun d => op d s

/-- `MemRead(a, 1)` (R44). -/
def memReadByte (a : Word) (s : State) (k : Byte → HandlerResult) : HandlerResult :=
  if byteInBounds a then k (s.mem.byte a.toNat) else .raised .memoryBounds a

/-- `MemRead(a, 4)` (R45). -/
def memReadWord (a : Word) (s : State) (k : Word → HandlerResult) : HandlerResult :=
  if wordInBounds a then k (s.mem.word a.toNat) else .raised .memoryBounds a

/-- `MemWrite(a, 1, v)` (R46): stores `v mod 256`. -/
def memWriteByte (a v : Word) (s : State) : HandlerResult :=
  if byteInBounds a then .done { s with mem := s.mem.setByte a.toNat (v.setWidth 8) } else .raised .memoryBounds a

/-- `MemWrite(a, 4, v)` (R47). -/
def memWriteWord (a v : Word) (s : State) : HandlerResult :=
  if wordInBounds a then .done { s with mem := s.mem.setWord a.toNat v } else .raised .memoryBounds a

/-- The byte write of R128: the value is checked before the address. -/
def checkedByteWrite (a v : Word) (s : State) : HandlerResult :=
  if Config.byteMax < v.toInt ∨ v.toInt < Config.byteMin then .raised .byteRange v else memWriteByte a v s

/-- `Push(v)` (R31), then `k`. -/
def pushWord (v : Word) (s : State) (k : State → HandlerResult) : HandlerResult :=
  if s.stack.sp < Config.stackUsable then k { s with stack := s.stack.push v } else .raised .stackOverflow v

end Sys2Proof.Machine
end

