-- ==== Sys2Proof/Machine/Arithmetic.lean ====
section
/-! DEFINITION. MOV, ADD, SUB, MUL and DIV (`40_arithmetic.md`): the ALU operations and the ten meanings. -/

namespace Sys2Proof.Machine

/-- MOV: `b` (R84). -/
def aluMov : AluOp := fun d _ b s => .done (s.setReg d b)

/-- ADD: flags of the exact sum, then its wrap (R85, R86). -/
def aluAdd : AluOp := fun d a b s =>
  .done ((s.setFlags (addSubFlags (a.toInt + b.toInt))).setReg d (wrap32 (a.toInt + b.toInt)))

/-- SUB: flags of the exact difference, then its wrap (R85, R86). -/
def aluSub : AluOp := fun d a b s =>
  .done ((s.setFlags (addSubFlags (a.toInt - b.toInt))).setReg d (wrap32 (a.toInt - b.toInt)))

/-- MUL: flags of the exact product, then its wrap (R85, R93). -/
def aluMul : AluOp := fun d a b s =>
  .done ((s.setFlags (mulFlags (a.toInt * b.toInt))).setReg d (wrap32 (a.toInt * b.toInt)))

/-- DIV: truncating (R96); divisor 0 raises (R97); the remainder is written to r6 after the quotient, so it wins when
the destination is r6 (R98). -/
def aluDiv : AluOp := fun d a b s =>
  if b = 0 then .raised .divideByZero a
  else
    let q := a.toInt.tdiv b.toInt
    .done ((s.setReg d (wrap32 q)).setReg .r6 (wrap32 (a.toInt - q * b.toInt)))

/-- MOV_DWORD (R87). -/
def execMovDword (rd imm : Word) (s : State) : StepOutcome := runHandler .movDword (dwordForm rd imm aluMov) s

/-- MOV_REG (R88). -/
def execMovReg (rd rs : Word) (s : State) : StepOutcome := runHandler .movReg (regForm rd rs aluMov) s

/-- ADD_DWORD (R89). -/
def execAddDword (rd imm : Word) (s : State) : StepOutcome := runHandler .addDword (dwordForm rd imm aluAdd) s

/-- ADD_REG (R90). -/
def execAddReg (rd rs : Word) (s : State) : StepOutcome := runHandler .addReg (regForm rd rs aluAdd) s

/-- SUB_DWORD (R91). -/
def execSubDword (rd imm : Word) (s : State) : StepOutcome := runHandler .subDword (dwordForm rd imm aluSub) s

/-- SUB_REG (R92). -/
def execSubReg (rd rs : Word) (s : State) : StepOutcome := runHandler .subReg (regForm rd rs aluSub) s

/-- MUL_DWORD (R94). -/
def execMulDword (rd imm : Word) (s : State) : StepOutcome := runHandler .mulDword (dwordForm rd imm aluMul) s

/-- MUL_REG (R95). -/
def execMulReg (rd rs : Word) (s : State) : StepOutcome := runHandler .mulReg (regForm rd rs aluMul) s

/-- DIV_DWORD (R98). -/
def execDivDword (rd imm : Word) (s : State) : StepOutcome := runHandler .divDword (dwordForm rd imm aluDiv) s

/-- DIV_REG (R99). -/
def execDivReg (rd rs : Word) (s : State) : StepOutcome := runHandler .divReg (regForm rd rs aluDiv) s

end Sys2Proof.Machine
end

