-- ==== Sys2Proof/Machine/Bitwise.lean ====
section
/-! DEFINITION. XOR, OR, AND and NOT (`41_bitwise.md`): no flag is read or written (R100). -/

namespace Sys2Proof.Machine

/-- XOR: `a ^ b`. -/
def aluXor : AluOp := fun d a b s => .done (s.setReg d (a ^^^ b))

/-- OR: `a | b`. -/
def aluOr : AluOp := fun d a b s => .done (s.setReg d (a ||| b))

/-- AND: `a & b`. -/
def aluAnd : AluOp := fun d a b s => .done (s.setReg d (a &&& b))

/-- NOT: `~b`; the old value of the destination is not used (R107). -/
def aluNot : AluOp := fun d _ b s => .done (s.setReg d (~~~b))

/-- XOR_DWORD (R101). -/
def execXorDword (rd imm : Word) (s : State) : StepOutcome := runHandler .xorDword (dwordForm rd imm aluXor) s

/-- XOR_REG (R102). -/
def execXorReg (rd rs : Word) (s : State) : StepOutcome := runHandler .xorReg (regForm rd rs aluXor) s

/-- OR_DWORD (R103). -/
def execOrDword (rd imm : Word) (s : State) : StepOutcome := runHandler .orDword (dwordForm rd imm aluOr) s

/-- OR_REG (R104). -/
def execOrReg (rd rs : Word) (s : State) : StepOutcome := runHandler .orReg (regForm rd rs aluOr) s

/-- AND_DWORD (R105). -/
def execAndDword (rd imm : Word) (s : State) : StepOutcome := runHandler .andDword (dwordForm rd imm aluAnd) s

/-- AND_REG (R106). -/
def execAndReg (rd rs : Word) (s : State) : StepOutcome := runHandler .andReg (regForm rd rs aluAnd) s

/-- NOT_DWORD (R108). -/
def execNotDword (rd imm : Word) (s : State) : StepOutcome := runHandler .notDword (dwordForm rd imm aluNot) s

/-- NOT_REG (R109). -/
def execNotReg (rd rs : Word) (s : State) : StepOutcome := runHandler .notReg (regForm rd rs aluNot) s

end Sys2Proof.Machine
end

