-- ==== Sys2Proof/Machine/Compare.lean ====
section
/-! DEFINITION. CMP_DWORD and CMP_REG (`43_compare.md`): flags only, no register written. -/

namespace Sys2Proof.Machine

/-- The comparison of CMP_DWORD (R114). -/
def aluCmpDword : AluOp := fun _ a b s => .done (s.setFlags (cmpDwordFlags a b s.flags))

/-- The comparison of CMP_REG (R115). -/
def aluCmpReg : AluOp := fun _ a b s => .done (s.setFlags (cmpRegFlags a b s.flags))

/-- CMP_DWORD (R114). -/
def execCmpDword (rd imm : Word) (s : State) : StepOutcome := runHandler .cmpDword (dwordForm rd imm aluCmpDword) s

/-- CMP_REG (R115). -/
def execCmpReg (rd rs : Word) (s : State) : StepOutcome := runHandler .cmpReg (regForm rd rs aluCmpReg) s

end Sys2Proof.Machine
end

