-- ==== Sys2Proof/Machine/Control.lean ====
section
/-! DEFINITION. LABEL, the jumps, CALL and RETN (`44_control.md`). The handlers see `ip = ip0 + k` (R19). -/

namespace Sys2Proof.Machine

/-- A relative jump, taken when `taken` holds: `ip <- wrap32(ip + off)` (R116, R119). -/
def jumpIf (taken : Bool) (off : Word) (s : State) : HandlerResult :=
  .done (if taken then s.setIp (wrap32 (s.ip.toInt + off.toInt)) else s)

/-- `ip <- PLEN`, the ending that HALT and RETN on an empty stack share (R125, R141). -/
def endProgram (s : State) : State := s.setIp (BitVec.ofNat 32 s.plen)

/-- CALL's handler (R124): push `wrap32(ip - 1)`, the CALL's own index, then `ip <- tgt`. -/
def callHandler (tgt : Word) (s : State) : HandlerResult :=
  pushWord (wrap32 (s.ip.toInt - 1)) s fun t => .done (t.setIp tgt)

/-- RETN's handler (R125): with an empty stack end the program, else `ip <- wrap32(a + 1)` for the popped `a`. -/
def retnHandler (s : State) : HandlerResult :=
  if s.stack.sp = 0 then .done (endProgram s)
  else .done ({ s with stack := s.stack.pop }.setIp (wrap32 (s.stack.top.toInt + 1)))

/-- LABEL (R118): nothing; the operand is ignored. -/
def execLabel (_id : Word) (s : State) : StepOutcome := runHandler .label .done s

/-- JMP (R119). -/
def execJmp (off : Word) (s : State) : StepOutcome := runHandler .jmp (jumpIf true off) s

/-- JE (R120). -/
def execJe (off : Word) (s : State) : StepOutcome := runHandler .je (fun t => jumpIf t.flags.equal off t) s

/-- JNE (R121). -/
def execJne (off : Word) (s : State) : StepOutcome := runHandler .jne (fun t => jumpIf (!t.flags.equal) off t) s

/-- JG (R122). -/
def execJg (off : Word) (s : State) : StepOutcome := runHandler .jg (fun t => jumpIf t.flags.greater off t) s

/-- JB (R123). -/
def execJb (off : Word) (s : State) : StepOutcome := runHandler .jb (fun t => jumpIf t.flags.lower off t) s

/-- CALL (R124). -/
def execCall (tgt : Word) (s : State) : StepOutcome := runHandler .call (callHandler tgt) s

/-- RETN (R125). -/
def execRetn (s : State) : StepOutcome := runHandler .retn retnHandler s

end Sys2Proof.Machine
end

