-- ==== Sys2Proof/Machine/IncDec.lean ====
section
/-! DEFINITION. INC and DEC (`42_incdec.md`). -/

namespace Sys2Proof.Machine

/-- Add one to a register; OVERFLOW written (R110). -/
def incRegister (d : Reg) (s : State) : HandlerResult :=
  .done ((s.setFlags (incFlags (s.reg d) s.flags)).setReg d (wrap32 ((s.reg d).toInt + 1)))

/-- Subtract one from a register; UNDERFLOW written (R111). -/
def decRegister (d : Reg) (s : State) : HandlerResult :=
  .done ((s.setFlags (decFlags (s.reg d) s.flags)).setReg d (wrap32 ((s.reg d).toInt - 1)))

/-- INC (R110). -/
def execInc (rd : Word) (s : State) : StepOutcome := runHandler .inc (unaryForm rd incRegister) s

/-- DEC (R111). -/
def execDec (rd : Word) (s : State) : StepOutcome := runHandler .dec (unaryForm rd decRegister) s

end Sys2Proof.Machine
end

