-- ==== Sys2Proof/Machine/MemoryOps.lean ====
section
/-! DEFINITION. WRITE and READ, byte and word (`45_memory_ops.md`). The DWORD forms take the address as an immediate,
the REG forms from a register and delegate to the same access (R127). -/

namespace Sys2Proof.Machine

/-- Load the byte at `a`, sign-extended, into `d` (R133). -/
def loadByte (d : Reg) (a : Word) (s : State) : HandlerResult :=
  memReadByte a s fun b => .done (s.setReg d (sext8 b))

/-- Load the Word at `a` into `d` (R135). -/
def loadWord (d : Reg) (a : Word) (s : State) : HandlerResult :=
  memReadWord a s fun w => .done (s.setReg d w)

/-- WRITE_BYTE_DWORD (R129). -/
def execWriteByteDword (addr imm : Word) (s : State) : StepOutcome :=
  runHandler .writeByteDword (checkedByteWrite addr imm) s

/-- WRITE_BYTE_REG (R130): address register, value register. -/
def execWriteByteReg (ra rv : Word) (s : State) : StepOutcome :=
  runHandler .writeByteReg (regForm ra rv fun _ a v => checkedByteWrite a v) s

/-- WRITE_WORD_DWORD (R131). -/
def execWriteWordDword (addr imm : Word) (s : State) : StepOutcome :=
  runHandler .writeWordDword (memWriteWord addr imm) s

/-- WRITE_WORD_REG (R132): address register, value register. -/
def execWriteWordReg (ra rv : Word) (s : State) : StepOutcome :=
  runHandler .writeWordReg (regForm ra rv fun _ a v => memWriteWord a v) s

/-- READ_BYTE_DWORD (R133). -/
def execReadByteDword (rd addr : Word) (s : State) : StepOutcome :=
  runHandler .readByteDword (dwordForm rd addr fun d _ a => loadByte d a) s

/-- READ_BYTE_REG (R134): destination register, address register. -/
def execReadByteReg (rd ra : Word) (s : State) : StepOutcome :=
  runHandler .readByteReg (regForm rd ra fun d _ a => loadByte d a) s

/-- READ_WORD_DWORD (R135). -/
def execReadWordDword (rd addr : Word) (s : State) : StepOutcome :=
  runHandler .readWordDword (dwordForm rd addr fun d _ a => loadWord d a) s

/-- READ_WORD_REG (R136): destination register, address register. -/
def execReadWordReg (rd ra : Word) (s : State) : StepOutcome :=
  runHandler .readWordReg (regForm rd ra fun d _ a => loadWord d a) s

end Sys2Proof.Machine
end

