-- ==== Sys2Proof/Machine/Stack.lean ====
section
/-! DEFINITION. PUSH and POP (`46_stack.md`). -/

namespace Sys2Proof.Machine

/-- Push a register's value (R138). -/
def pushRegister (d : Reg) (s : State) : HandlerResult := pushWord (s.reg d) s .done

/-- Pop into a register; an empty stack raises `STACK_UNDERFLOW` with info 0 (R139). -/
def popRegister (d : Reg) (s : State) : HandlerResult :=
  if s.stack.sp = 0 then .raised .stackUnderflow 0
  else .done ({ s with stack := s.stack.pop }.setReg d s.stack.top)

/-- PUSH (R138). -/
def execPush (rd : Word) (s : State) : StepOutcome := runHandler .push (unaryForm rd pushRegister) s

/-- POP (R139). -/
def execPop (rd : Word) (s : State) : StepOutcome := runHandler .pop (unaryForm rd popRegister) s

end Sys2Proof.Machine
end

