-- ==== Sys2Proof/Machine/System.lean ====
section
/-! DEFINITION. HALT and INT (`47_system.md`): the program's end and the request step of a system call. -/

namespace Sys2Proof.Machine

/-- Block on a host call: the status becomes `BLOCKED(req)` and nothing else changes (R142). -/
def blockOn (call : HostCall) (text : List Byte) (ip0 : Word) (s : State) : HandlerResult :=
  .blocked { s with
    status := .blocked
      { call := call, text := text, arg1 := s.reg .r1, arg2 := s.reg .r2, arg3 := s.reg .r3, ip0 := ip0 } }

/-- The dispatch on the function id, after the string has been read (R142): ids 0 to 4 block, id 5 writes the memory
size to r1, every other id raises `SYSCALL_ID`. -/
def systemCall (id : Word) (text : List Byte) (ip0 : Word) (s : State) : HandlerResult :=
  match id.toNat with
  | 0 => blockOn .readLine text ip0 s
  | 1 => blockOn .writeLine text ip0 s
  | 2 => blockOn .readFileByte text ip0 s
  | 3 => blockOn .writeFileByte text ip0 s
  | 4 => blockOn .fileSize text ip0 s
  | 5 => .done (s.setReg .r1 (BitVec.ofNat 32 Config.memSize))
  | _ => .raised .syscallId id

/-- INT's handler (R142): the string at r1 is read first, for every id. -/
def intHandler (id ip0 : Word) (s : State) : HandlerResult :=
  match s.mem.string (s.reg .r1) with
  | .error info => .raised .memoryBounds info
  | .ok text => systemCall id text ip0 s

/-- HALT's handler (R141). -/
def haltHandler (s : State) : HandlerResult := .done (endProgram s)

/-- HALT (R141). -/
def execHalt (s : State) : StepOutcome := runHandler .halt haltHandler s

/-- INT (R142). -/
def execInt (id : Word) (s : State) : StepOutcome := runHandler .int (intHandler id s.ip) s

end Sys2Proof.Machine
end

