-- ==== Sys2Proof/Machine/Dispatch.lean ====
section
/-! DEFINITION. The dispatch of R84 and R165: one arm per instruction, each one call of its meaning. -/

namespace Sys2Proof.Machine

/-- The part of the step after the fetch, for the instruction at `ip`. -/
def exec (i : Instr) (s : State) : Host.Outcome State Fault Refusal :=
  match i with
  | .movDword rd imm => Sys2Proof.Machine.execMovDword rd imm s
  | .movReg rd rs => Sys2Proof.Machine.execMovReg rd rs s
  | .addDword rd imm => Sys2Proof.Machine.execAddDword rd imm s
  | .addReg rd rs => Sys2Proof.Machine.execAddReg rd rs s
  | .subDword rd imm => Sys2Proof.Machine.execSubDword rd imm s
  | .subReg rd rs => Sys2Proof.Machine.execSubReg rd rs s
  | .mulDword rd imm => Sys2Proof.Machine.execMulDword rd imm s
  | .mulReg rd rs => Sys2Proof.Machine.execMulReg rd rs s
  | .divDword rd imm => Sys2Proof.Machine.execDivDword rd imm s
  | .divReg rd rs => Sys2Proof.Machine.execDivReg rd rs s
  | .xorDword rd imm => Sys2Proof.Machine.execXorDword rd imm s
  | .xorReg rd rs => Sys2Proof.Machine.execXorReg rd rs s
  | .orDword rd imm => Sys2Proof.Machine.execOrDword rd imm s
  | .orReg rd rs => Sys2Proof.Machine.execOrReg rd rs s
  | .andDword rd imm => Sys2Proof.Machine.execAndDword rd imm s
  | .andReg rd rs => Sys2Proof.Machine.execAndReg rd rs s
  | .notDword rd imm => Sys2Proof.Machine.execNotDword rd imm s
  | .notReg rd rs => Sys2Proof.Machine.execNotReg rd rs s
  | .inc rd => Sys2Proof.Machine.execInc rd s
  | .dec rd => Sys2Proof.Machine.execDec rd s
  | .cmpDword rd imm => Sys2Proof.Machine.execCmpDword rd imm s
  | .cmpReg rd rs => Sys2Proof.Machine.execCmpReg rd rs s
  | .label id => Sys2Proof.Machine.execLabel id s
  | .jmp off => Sys2Proof.Machine.execJmp off s
  | .je off => Sys2Proof.Machine.execJe off s
  | .jne off => Sys2Proof.Machine.execJne off s
  | .jg off => Sys2Proof.Machine.execJg off s
  | .jb off => Sys2Proof.Machine.execJb off s
  | .call tgt => Sys2Proof.Machine.execCall tgt s
  | .retn => Sys2Proof.Machine.execRetn s
  | .writeByteDword addr imm => Sys2Proof.Machine.execWriteByteDword addr imm s
  | .writeByteReg ra rv => Sys2Proof.Machine.execWriteByteReg ra rv s
  | .writeWordDword addr imm => Sys2Proof.Machine.execWriteWordDword addr imm s
  | .writeWordReg ra rv => Sys2Proof.Machine.execWriteWordReg ra rv s
  | .readByteDword rd addr => Sys2Proof.Machine.execReadByteDword rd addr s
  | .readByteReg rd ra => Sys2Proof.Machine.execReadByteReg rd ra s
  | .readWordDword rd addr => Sys2Proof.Machine.execReadWordDword rd addr s
  | .readWordReg rd ra => Sys2Proof.Machine.execReadWordReg rd ra s
  | .push rd => Sys2Proof.Machine.execPush rd s
  | .pop rd => Sys2Proof.Machine.execPop rd s
  | .halt => Sys2Proof.Machine.execHalt s
  | .int id => Sys2Proof.Machine.execInt id s

end Sys2Proof.Machine
end

