-- ==== Sys2Proof/Machine/Fetch.lean ====
section
/-! DEFINITION. The instruction boundary and the fetch (R64, R164, R165), and the placing of an instruction where the
next step fetches. -/

namespace Sys2Proof.Machine

/-- What the engine finds at an instruction boundary. -/
inductive Fetched where
  /-- `ip >= PLEN`: the normal end. -/
  | ended
  /-- A fault of the boundary check or of the decode. -/
  | raised (cause : FaultCause) (info : Word)
  /-- An instruction. -/
  | instr (i : Instr)
  deriving DecidableEq, Repr

/-- The fault that a decode error at index `ip0` raises (R64): the opcode Word, or the index of the missing operand
Word. -/
def decodeFault (ip0 : Word) : DecodeError → Fetched
  | .noWords => .ended
  | .illegalOpcode op => .raised .illegalOpcode op
  | .truncated missing => .raised .fetchRange (ip0 + BitVec.ofNat 32 missing)

/-- The boundary check, then the fetch and decode at `ip` under any opcode map (R69, R164, R165). -/
def fetchWith (map : Opcode → Word) (s : State) : Fetched :=
  if (s.plen : Int) ≤ s.ip.toInt then .ended
  else if s.ip.toInt < 0 then .raised .fetchRange s.ip
  else
    match decodeWith map (s.program.drop s.ip.toNat) with
    | .ok (i, _) => .instr i
    | .error e => decodeFault s.ip e

/-- The fetch with the default `OPCODE_MAP`. -/
def fetch (s : State) : Fetched := fetchWith Opcode.word s

/-- The normal end of a run: the status becomes HALTED and nothing else changes (R164). -/
def State.haltRun (s : State) : State := { s with status := .halted }

/-- A program with the Words `ws` at index `n` and the others as they were (0 where there were none). -/
def overlay (p : List Word) (n : Nat) (ws : List Word) : List Word :=
  p.take n ++ List.replicate (n - p.length) 0 ++ ws ++ p.drop (n + ws.length)

/-- The index at which an instruction can be placed for the next fetch: `ip`, or 0 when no program of a legal length
has an instruction there. -/
def placeIndex (s : State) : Word :=
  if 0 ≤ s.ip.toInt ∧ s.ip.toInt + 3 ≤ Config.maxPlen then s.ip else 0

/-- The state with the Words `ws` placed where the next step fetches, and the engine RUNNING. -/
def placeInstr (s : State) (ws : List Word) : State :=
  { s.setIp (placeIndex s) with
    program := overlay s.program (placeIndex s).toNat ws
    status := .running }

end Sys2Proof.Machine
end

