-- ==== Sys2Proof/Machine/HostPort.lean ====
section
/-! DEFINITION. The interfaces of R37 that are not instructions: load and start, the host's side of the system-call
port, the response step (R144), and the inspection of the final state (R38). -/

namespace Sys2Proof.Machine

/-- Load and start (R37, R169): reset with the program loaded; a program longer than 2^31 - 2 Words is refused (R28).
The run begins with the host having answered nothing (log entry 2). -/
def State.load (p : List Word) : StepOutcome :=
  if p.length ≤ Config.maxPlen then .next { State.reset with program := p } else .refused .programTooLong

/-- The host gives one more response to the system-call port. It is the host's action, not a step of the engine. -/
def State.hostAnswer (s : State) (r : Response) : State := { s with hostAnswers := s.hostAnswers ++ [r] }

/-- The response has the shape R144 gives for the call. -/
def Response.fits : HostCall → Response → Bool
  | _, .fail => true
  | .readLine, .line _ => true
  | .readFileByte, .word _ => true
  | .fileSize, .word _ => true
  | .writeLine, .done => true
  | .writeFileByte, .done => true
  | _, _ => false

/-- The end of a response step (R144): `ip <- wrap32(ip + 1)`, status RUNNING. -/
def State.resume (s : State) : State := { s.setIp (wrap32 (s.ip.toInt + 1)) with status := .running }

/-- What a response does, the response already taken from the port (R144). -/
def applyResponse (req : Request) (resp : Response) (s : State) : StepOutcome :=
  match req.call, resp with
  | _, .fail => .next (s.takeFault .syscallIo req.call.id req.ip0)
  | .readLine, .line bs =>
    if lineFits (s.reg .r2) bs then
      .next (({ s with mem := s.mem.setLine (s.reg .r2).toNat bs }.setReg .r1 (BitVec.ofNat 32 bs.length)).resume)
    else .next (s.takeFault .memoryBounds (s.reg .r2) req.ip0)
  | .readFileByte, .word w => .next ((s.setReg .r1 w).resume)
  | .fileSize, .word w => .next ((s.setReg .r1 w).resume)
  | .writeLine, .done => .next s.resume
  | .writeFileByte, .done => .next s.resume
  | _, _ => .fault .hostProtocol

/-- A step in status `BLOCKED(req)`: with no response the engine takes no step and stays as it is (R145, log
entry 4); else it takes the first response (R144). -/
def respond (req : Request) (s : State) : StepOutcome :=
  match s.hostAnswers with
  | [] => .next s
  | resp :: rest => applyResponse req resp { s with hostAnswers := rest }

/-- The live entries `E[1..sp]`, bottom first (R38). -/
def CallStack.live (st : CallStack) : List Word := (List.range st.sp).map (fun n => st.slot (n + 1))

/-- What the host reads of a final state (R38). -/
structure HostView where
  regs : RegFile
  flags : Flags
  mem : Memory
  sp : Nat
  live : List Word
  fault : Option (FaultCause × Word × Word)
  deriving DecidableEq, Repr

/-- The view with the given fault record. -/
def State.viewWith (s : State) (fault : Option (FaultCause × Word × Word)) : HostView :=
  { regs := s.regs, flags := s.flags, mem := s.mem, sp := s.stack.sp, live := s.stack.live, fault := fault }

/-- The host's view (R38): the host reads the state only at HALTED or FAULTED. -/
def State.hostView (s : State) : Option HostView :=
  match s.status with
  | .halted => some (s.viewWith none)
  | .faulted cause info faultIp => some (s.viewWith (some (cause, info, faultIp)))
  | .running => none
  | .blocked _ => none

/-- The exit code (R35): r1 once the run has ended. -/
def State.exitCode (s : State) : Option Word := s.hostView.map (fun v => v.regs.r1)

end Sys2Proof.Machine
end

