-- ==== Sys2Proof/Machine/Step.lean ====
section
/-! DEFINITION. One step of the engine (R165), with the response step of a blocked INT (R144). `OPCODE_MAP` is an
argument (R69), and `step` takes the spec's default for it. -/

namespace Sys2Proof.Machine

/-- A step in status RUNNING under any opcode map (R69, R165). -/
def runningStepWith (map : Opcode → Word) (s : State) : StepOutcome :=
  match fetchWith map s with
  | .ended => .next s.haltRun
  | .raised cause info => .next (s.takeFault cause info s.ip)
  | .instr i => exec i s

/-- One step of the engine whose `OPCODE_MAP` is `map` (R69). HALTED and FAULTED are final: the engine takes no further
step, and the state stays as it is (R34, R149, log entry 4). -/
def stepWith (map : Opcode → Word) (s : State) : StepOutcome :=
  match s.status with
  | .running => runningStepWith map s
  | .blocked req => respond req s
  | .halted => .next s
  | .faulted _ _ _ => .next s

/-- One step, with the default `OPCODE_MAP` (log entry 8). -/
def step (s : State) : Host.Outcome State Fault Refusal := stepWith Opcode.word s

/-- The machine whose `OPCODE_MAP` is `map`; `Sys2Proof.core` is the machine of the default map. -/
def coreWith (map : Opcode → Word) : Host.Core :=
  { State := State, Fault := Fault, Refusal := Refusal, step := stepWith map, reset := State.reset }

/-- The state with the table's instruction placed where the next step fetches it (log entry 1). -/
def State.withFetchWord (s : State) (nbits w : Nat) : State := placeInstr s (tableWords nbits w)

end Sys2Proof.Machine
end

