-- ==== Sys2Proof/Safety.lean ====
section
/-! DEFINITION. The terms the statements use: what an instruction leaves unchanged, what it writes, and the invariant
of every run. -/

namespace Sys2Proof.Machine

/-- What a handler reads from register `r` in an instruction of `k` operand Words (R19): `rip` reads as `ip0 + k`. -/
def State.operand (s : State) (k : Nat) (r : Reg) : Word :=
  if r = .rip then s.reg .rip + BitVec.ofNat 32 k else s.reg r

/-- Every byte of memory reads as before. -/
def SameMemory (s t : State) : Prop := ∀ a : Nat, t.mem.byte a = s.mem.byte a

/-- The call stack has the depth and the slots it had. -/
def SameStack (s t : State) : Prop := t.stack.sp = s.stack.sp ∧ ∀ n : Nat, t.stack.slot n = s.stack.slot n

/-- The program, the run status and the host's pending responses (the model's own field, log entry 2) are as before. -/
def SameRun (s t : State) : Prop :=
  t.program = s.program ∧ t.status = s.status ∧ t.hostAnswers = s.hostAnswers

/-- Memory, call stack, program, status and responses are as before: only registers and flags may differ. -/
def SameData (s t : State) : Prop := SameMemory s t ∧ SameStack s t ∧ SameRun s t

/-- No register is written by the handler. -/
def noWrite : Reg → Option Word := fun _ => none

/-- The handler writes `v` to `d` and to no other register. -/
def oneWrite (d : Reg) (v : Word) : Reg → Option Word := fun r => if r = d then some v else none

/-- The registers after an instruction of `k` operand Words whose handler writes `w`: a register not written keeps
what the handler reads from it, and then the loop adds 1 to `rip` (R19, R20). -/
def RegsAfter (s t : State) (k : Nat) (w : Reg → Option Word) : Prop :=
  ∀ r : Reg, t.reg r = (w r).getD (s.operand k r) + (if r = .rip then 1 else 0)

/-- `v` has been pushed and every other slot is as before. -/
def Pushed (s t : State) (v : Word) : Prop :=
  t.stack.sp = s.stack.sp + 1 ∧
    ∀ n : Nat, t.stack.slot n = if n = s.stack.sp + 1 then v else s.stack.slot n

/-- One entry has been popped; no slot is written. -/
def Popped (s t : State) : Prop :=
  t.stack.sp + 1 = s.stack.sp ∧ ∀ n : Nat, t.stack.slot n = s.stack.slot n

/-- The state of a fault at this instruction: nothing changes but the status (R149). -/
def State.faultedAt (s : State) (cause : FaultCause) (info : Word) : State :=
  { s with status := .faulted cause info (s.reg .rip) }

/-- At most one of GREATER, LOWER and EQUAL is true (R26). -/
abbrev Flags.exclusive (f : Flags) : Prop :=
  (f.greater && f.lower) = false ∧ (f.greater && f.equal) = false ∧ (f.lower && f.equal) = false

/-- What the run status says about the rest of the state: BLOCKED stands at an INT of the program, whose string and
argument registers its request repeats; HALTED has `ip >= PLEN`; FAULTED has `ip` at the faulting instruction. -/
def StatusConsistent (s : State) : Prop :=
  match s.status with
  | .running => True
  | .blocked req =>
    s.reg .rip = req.ip0 + 1 ∧ s.reg .r1 = req.arg1 ∧ s.reg .r2 = req.arg2 ∧ s.reg .r3 = req.arg3 ∧
      s.mem.string req.arg1 = .ok req.text ∧ 0 ≤ req.ip0.toInt ∧
      ∃ rest, decode (s.program.drop req.ip0.toNat) = .ok (.int req.call.id, rest)
  | .halted => (s.plen : Int) ≤ (s.reg .rip).toInt
  | .faulted _ _ faultIp => s.reg .rip = faultIp

/-- The invariant of every run: memory and stack slots in canonical form, at most 255 live entries, a program of a
legal length, the comparison flags exclusive, and the status consistent. -/
def Inv (s : State) : Prop :=
  s.mem.wf ∧ s.stack.wf ∧ s.program.length ≤ Config.maxPlen ∧ s.flags.exclusive ∧ StatusConsistent s

/-- The run has ended (R167). -/
def State.ended (s : State) : Bool :=
  match s.status with
  | .halted => true
  | .faulted _ _ _ => true
  | .running => false
  | .blocked _ => false

end Sys2Proof.Machine
end

