-- ==== Sys2Proof/Certificates/Slice0/Obligations.lean ====
section
/-! DEFINITION. The statements for the provers. `Sys2Proof.Rules` holds the shapes that the rules of one family share;
each obligation names the rules it formalises. -/

namespace Sys2Proof.Rules

open Sys2Proof.Machine

/-- The Word is no register index (R15). -/
def BadIndex (w : Word) : Prop := w.toInt < 0 ∨ 8 < w.toInt

/-- `wrap32(n)`, by the formula of R7. -/
def wrapped (n : Int) : Word := BitVec.ofInt 32 ((n + 2 ^ 31) % 2 ^ 32 - 2 ^ 31)

/-- `exec i s` answers a next state `t`: an instruction of `k` operand Words whose handler writes the registers `w`,
with the flags `f` after it and `Rest s t` for the rest of the state. -/
def Becomes (i : Instr) (s : State) (k : Nat) (w : Reg → Option Word) (f : Flags) (Rest : State → State → Prop) :
    Prop := ∃ t : State, exec i s = .next t ∧ RegsAfter s t k w ∧ t.flags = f ∧ Rest s t

/-- Format `RI`: the encoding, and `REGISTER_INDEX` for a bad `rd`. -/
def DwordChecks (mk : Word → Word → Instr) (op : Word) : Prop :=
  (∀ rd imm, encode (mk rd imm) = [op, rd, imm]) ∧
    ∀ s rd imm, BadIndex rd → exec (mk rd imm) s = .next (s.faultedAt .registerIndex rd)

/-- Format `RR`: the encoding, and `REGISTER_INDEX` for a bad `rd`, then for a bad `rs`. -/
def RegChecks (mk : Word → Word → Instr) (op : Word) : Prop :=
  (∀ rd rs, encode (mk rd rs) = [op, rd, rs]) ∧
    (∀ s rd rs, BadIndex rd → exec (mk rd rs) s = .next (s.faultedAt .registerIndex rd)) ∧
    ∀ s (d : Reg) rs, BadIndex rs → exec (mk d.index rs) s = .next (s.faultedAt .registerIndex rs)

/-- Format `R`: the encoding, and `REGISTER_INDEX` for a bad `rd`. -/
def UnaryChecks (mk : Word → Instr) (op : Word) : Prop :=
  (∀ rd, encode (mk rd) = [op, rd]) ∧
    ∀ s rd, BadIndex rd → exec (mk rd) s = .next (s.faultedAt .registerIndex rd)

/-- A DWORD form of the ALU (R83): its checks, and for every register and immediate what it writes. -/
def DwordRule (mk : Word → Word → Instr) (op : Word) (w : Reg → Word → Word → Reg → Option Word)
    (f : Word → Word → Flags → Flags) : Prop :=
  DwordChecks mk op ∧
    ∀ (s : State) (d : Reg) (imm : Word),
      Becomes (mk d.index imm) s 2 (w d (s.operand 2 d) imm) (f (s.operand 2 d) imm s.flags) SameData

/-- A REG form of the ALU (R83): its checks, and for every two registers what it writes. -/
def RegRule (mk : Word → Word → Instr) (op : Word) (w : Reg → Word → Word → Reg → Option Word)
    (f : Word → Word → Flags → Flags) : Prop :=
  RegChecks mk op ∧
    ∀ (s : State) (d r : Reg),
      Becomes (mk d.index r.index) s 2 (w d (s.operand 2 d) (s.operand 2 r))
        (f (s.operand 2 d) (s.operand 2 r) s.flags) SameData

/-- No flag changes. -/
def keepFlags : Word → Word → Flags → Flags := fun _ _ f => f

/-- The flags after ADD or SUB with exact result `r`. -/
def sumFlags (r : Int) : Flags := ⟨decide (r > 2 ^ 31 - 1), decide (r < -2 ^ 31), false, false, false⟩

/-- The flags after MUL with exact product `p`. -/
def productFlags (p : Int) : Flags := ⟨decide (p > 2 ^ 31 - 1 ∨ p < -2 ^ 31), false, false, false, false⟩

/-- DIV of `a` by `b` into `d`: with a divisor 0 it faults; else there are the quotient and remainder of R96, the
quotient is written to `d`, then the remainder to r6. -/
def DivEffect (i : Instr) (s : State) (d : Reg) (a b : Word) : Prop :=
  (b = 0 → exec i s = .next (s.faultedAt .divideByZero a)) ∧
    (b ≠ 0 → ∃ q r : Int, a.toInt = q * b.toInt + r ∧ r.natAbs < b.toInt.natAbs ∧
      (0 < r → 0 < a.toInt) ∧ (r < 0 → a.toInt < 0) ∧
      Becomes i s 2 (fun x => if x = .r6 then some (wrapped r) else oneWrite d (wrapped q) x) s.flags SameData)

/-- A relative jump, taken when `taken` says so of the flags: `ip <- wrap32(ip + off)` with `ip = ip0 + 1`. -/
def JumpRule (mk : Word → Instr) (op : Word) (taken : Flags → Bool) : Prop :=
  (∀ off, encode (mk off) = [op, off]) ∧
    ∀ (s : State) (off : Word),
      Becomes (mk off) s 1
        (if taken s.flags then oneWrite .rip (wrapped ((s.operand 1 .rip).toInt + off.toInt)) else noWrite) s.flags
        SameData

/-- A byte write of `v` at `a`: the value check, then the address check, then exactly one byte stored. -/
def ByteStoreEffect (i : Instr) (s : State) (a v : Word) : Prop :=
  (127 < v.toInt ∨ v.toInt < -128 → exec i s = .next (s.faultedAt .byteRange v)) ∧
    (-128 ≤ v.toInt ∧ v.toInt ≤ 127 → a.toInt < 0 ∨ 65535 < a.toInt →
      exec i s = .next (s.faultedAt .memoryBounds a)) ∧
    (-128 ≤ v.toInt ∧ v.toInt ≤ 127 → 0 ≤ a.toInt ∧ a.toInt ≤ 65535 →
      Becomes i s 2 noWrite s.flags fun s t =>
        (∀ n : Nat, t.mem.byte n = if n = a.toNat then BitVec.ofInt 8 v.toInt else s.mem.byte n) ∧
          SameStack s t ∧ SameRun s t)

/-- A word write of `v` at `a`: the address check, then four bytes stored, the most significant first. -/
def WordStoreEffect (i : Instr) (s : State) (a v : Word) : Prop :=
  (a.toInt < 0 ∨ 65532 < a.toInt → exec i s = .next (s.faultedAt .memoryBounds a)) ∧
    (0 ≤ a.toInt ∧ a.toInt ≤ 65532 →
      Becomes i s 2 noWrite s.flags fun s t =>
        t.mem.byte a.toNat = BitVec.ofNat 8 (v.toNat / 2 ^ 24) ∧
          t.mem.byte (a.toNat + 1) = BitVec.ofNat 8 (v.toNat / 2 ^ 16) ∧
          t.mem.byte (a.toNat + 2) = BitVec.ofNat 8 (v.toNat / 2 ^ 8) ∧
          t.mem.byte (a.toNat + 3) = BitVec.ofNat 8 v.toNat ∧
          (∀ n : Nat, n < a.toNat ∨ a.toNat + 3 < n → t.mem.byte n = s.mem.byte n) ∧ SameStack s t ∧ SameRun s t)

/-- A byte read at `a` into `d`: the address check, then the byte, sign-extended. -/
def ByteLoadEffect (i : Instr) (s : State) (d : Reg) (a : Word) : Prop :=
  (a.toInt < 0 ∨ 65535 < a.toInt → exec i s = .next (s.faultedAt .memoryBounds a)) ∧
    (0 ≤ a.toInt ∧ a.toInt ≤ 65535 →
      Becomes i s 2
        (oneWrite d (BitVec.ofInt 32 (if (s.mem.byte a.toNat).toNat < 128 then ((s.mem.byte a.toNat).toNat : Int)
          else ((s.mem.byte a.toNat).toNat : Int) - 256))) s.flags SameData)

/-- A word read at `a` into `d`: the address check, then the big-endian Word. -/
def WordLoadEffect (i : Instr) (s : State) (d : Reg) (a : Word) : Prop :=
  (a.toInt < 0 ∨ 65532 < a.toInt → exec i s = .next (s.faultedAt .memoryBounds a)) ∧
    (0 ≤ a.toInt ∧ a.toInt ≤ 65532 →
      Becomes i s 2
        (oneWrite d (BitVec.ofNat 32 ((s.mem.byte a.toNat).toNat * 2 ^ 24 + (s.mem.byte (a.toNat + 1)).toNat * 2 ^ 16 +
          (s.mem.byte (a.toNat + 2)).toNat * 2 ^ 8 + (s.mem.byte (a.toNat + 3)).toNat))) s.flags SameData)

/-- `bs` is the string at `a`: `a` in byte bounds, and `bs` the bytes before the first 0 byte from `a` on (R49). -/
def IsString (m : Memory) (a : Word) (bs : List Byte) : Prop :=
  0 ≤ a.toInt ∧ a.toInt ≤ 65535 ∧ a.toNat + bs.length ≤ 65535 ∧ m.byte (a.toNat + bs.length) = 0 ∧
    ∀ j (h : j < bs.length), bs[j] = m.byte (a.toNat + j) ∧ m.byte (a.toNat + j) ≠ 0

/-- A response step that succeeds in status `BLOCKED(req)` with the response `resp` (R144): the engine takes it,
writes `w` to r1 if there is a `w`, adds 1 to `ip` and runs again; `Mem` says what memory becomes. -/
def Resumes (s : State) (w : Option Word) (Mem : State → State → Prop) : Prop :=
  ∃ t : State, step s = .next t ∧
    (∀ r : Reg, t.reg r =
      if r = .rip then s.reg .rip + 1 else if r = .r1 then w.getD (s.reg .r1) else s.reg r) ∧
    t.flags = s.flags ∧ Mem s t ∧ SameStack s t ∧ t.program = s.program ∧ t.status = .running ∧
    t.hostAnswers = s.hostAnswers.tail

/-- The fault of a response step: the state is as before but for the status, `ip` back at the INT, and the response
taken. -/
def respondFault (s : State) (req : Request) (cause : FaultCause) (info : Word) : State :=
  { s with regs := { s.regs with rip := req.ip0 }, status := .faulted cause info req.ip0,
           hostAnswers := s.hostAnswers.tail }

/-- The causes that the table of R147 lets an instruction's handler raise. -/
def mayRaise : Instr → FaultCause → Bool
  | .movDword _ _, c | .movReg _ _, c | .addDword _ _, c | .addReg _ _, c | .subDword _ _, c | .subReg _ _, c
  | .mulDword _ _, c | .mulReg _ _, c | .xorDword _ _, c | .xorReg _ _, c | .orDword _ _, c | .orReg _ _, c
  | .andDword _ _, c | .andReg _ _, c | .notDword _ _, c | .notReg _ _, c | .inc _, c | .dec _, c
  | .cmpDword _ _, c | .cmpReg _ _, c => c = .registerIndex
  | .divDword _ _, c | .divReg _ _, c => c = .registerIndex || c = .divideByZero
  | .label _, _ | .jmp _, _ | .je _, _ | .jne _, _ | .jg _, _ | .jb _, _ | .retn, _ | .halt, _ => false
  | .call _, c => c = .stackOverflow
  | .writeByteDword _ _, c => c = .byteRange || c = .memoryBounds
  | .writeByteReg _ _, c => c = .registerIndex || c = .byteRange || c = .memoryBounds
  | .writeWordDword _ _, c => c = .memoryBounds
  | .writeWordReg _ _, c | .readByteDword _ _, c | .readByteReg _ _, c | .readWordDword _ _, c
  | .readWordReg _ _, c => c = .registerIndex || c = .memoryBounds
  | .push _, c => c = .registerIndex || c = .stackOverflow
  | .pop _, c => c = .registerIndex || c = .stackUnderflow
  | .int _, c => c = .memoryBounds || c = .syscallId

/-- The causes left to a well-formed instruction: those that the state alone decides. -/
def mayRaiseWellFormed : Instr → FaultCause → Bool
  | .divReg _ _, c => c = .divideByZero
  | .call _, c | .push _, c => c = .stackOverflow
  | .pop _, c => c = .stackUnderflow
  | .writeByteReg _ _, c => c = .byteRange || c = .memoryBounds
  | .writeWordReg _ _, c | .readByteReg _ _, c | .readWordReg _ _, c | .int _, c => c = .memoryBounds
  | _, _ => false

/-- The registers other than `rip` that an instruction may write: its destination operand, DIV's r6, INT's r1. -/
def mayWrite : Instr → Reg → Prop
  | .movDword rd _, r | .movReg rd _, r | .addDword rd _, r | .addReg rd _, r | .subDword rd _, r
  | .subReg rd _, r | .mulDword rd _, r | .mulReg rd _, r | .xorDword rd _, r | .xorReg rd _, r | .orDword rd _, r
  | .orReg rd _, r | .andDword rd _, r | .andReg rd _, r | .notDword rd _, r | .notReg rd _, r | .inc rd, r
  | .dec rd, r | .readByteDword rd _, r | .readByteReg rd _, r | .readWordDword rd _, r | .readWordReg rd _, r
  | .pop rd, r => rd = r.index
  | .divDword rd _, r | .divReg rd _, r => rd = r.index ∨ r = .r6
  | .int _, r => r = .r1
  | _, _ => False

/-- The instruction is one of the four WRITE instructions. -/
def writesMemory : Instr → Bool
  | .writeByteDword _ _ | .writeByteReg _ _ | .writeWordDword _ _ | .writeWordReg _ _ => true
  | _ => false

/-- The instruction is CALL, RETN, PUSH or POP. -/
def usesStack : Instr → Bool
  | .call _ | .retn | .push _ | .pop _ => true
  | _ => false

/-- The instruction is JMP, JE, JNE, JG, JB, CALL, RETN or HALT. -/
def transfersControl : Instr → Bool
  | .jmp _ | .je _ | .jne _ | .jg _ | .jb _ | .call _ | .retn | .halt => true
  | _ => false

/-- Which flags an instruction may change, by the table of R24: OVERFLOW, UNDERFLOW, and the three of a comparison. -/
def flagRow : Instr → Bool × Bool × Bool
  | .addDword _ _ | .addReg _ _ | .subDword _ _ | .subReg _ _ | .mulDword _ _ | .mulReg _ _ => (true, true, true)
  | .inc _ => (true, false, false)
  | .dec _ => (false, true, false)
  | .cmpDword _ _ | .cmpReg _ _ => (false, false, true)
  | _ => (false, false, false)

/-- Two flag sets agree on the flag that an instruction reads (R25). -/
def agreeOnRead : Instr → Flags → Flags → Prop
  | .je _, f, g | .jne _, f, g => f.equal = g.equal
  | .jg _, f, g => f.greater = g.greater
  | .jb _, f, g => f.lower = g.lower
  | _, _, _ => True

/-- Two states that differ at most in the stack slots that are not live: above `sp`, and slot 0. -/
def SameButStale (s t : State) : Prop :=
  t.regs = s.regs ∧ t.flags = s.flags ∧ t.mem = s.mem ∧ t.program = s.program ∧ t.status = s.status ∧
    t.hostAnswers = s.hostAnswers ∧ t.stack.sp = s.stack.sp ∧
    ∀ n : Nat, 1 ≤ n → n ≤ s.stack.sp → t.stack.slot n = s.stack.slot n

end Sys2Proof.Rules

open Sys2Proof Sys2Proof.Machine Sys2Proof.Rules

/-- Loading a program gives the reset state of the spec, with that program. Rests on 70_reset_and_hazards.md section
1 (decision D22); 10_state.md section 9. Part of it is the model's choice (log entry 2). -/
def Obligations.LoadResetsEveryField : Prop :=
  ∀ p : List Word, p.length ≤ 2147483646 →
    ∃ t : State, State.load p = .next t ∧ (∀ r : Reg, t.reg r = 0) ∧ t.flags = ⟨false, false, false, false, false⟩ ∧
      (∀ a : Nat, t.mem.byte a = 0) ∧ t.stack.sp = 0 ∧ (∀ n : Nat, t.stack.slot n = 0) ∧ t.program = p ∧
      t.status = .running

/-- A program longer than 2^31 - 2 Words is refused at load. Rests on 10_state.md section 4 (decision D22). -/
def Obligations.LoadRefusesOverlongPrograms : Prop :=
  ∀ p : List Word, 2147483646 < p.length → State.load p = .refused .programTooLong

/-- The invariant holds at reset and at every loaded state. Rests on 70_reset_and_hazards.md section 1. Part of it
is the model's choice (log entry 2). -/
def Obligations.ResetMeetsInvariant : Prop :=
  Inv State.reset ∧
    ∀ (p : List Word) (t : State) (h : List Response), State.load p = .next t → Inv { t with hostAnswers := h }

/-- Every step keeps the invariant, from every state that has it. Rests on 10_state.md sections 3 to 7; 20_memory.md
section 1; 70_reset_and_hazards.md section 2. Part of it is the model's choice (log entry 4). -/
def Obligations.StepKeepsInvariant : Prop :=
  ∀ s t : State, Inv s → step s = .next t → Inv t

/-- Every state that a run from any load reaches, with any host responses, meets the invariant. Rests on
70_reset_and_hazards.md sections 1 and 2; 10_state.md section 3. Part of it is the model's choice (log entries 2
and 4). -/
def Obligations.EveryRunKeepsInvariant : Prop :=
  ∀ (p : List Word) (h : List Response) (k : Nat) (s t : State), State.load p = .next s →
    Host.Core.run Sys2Proof.core k { s with hostAnswers := h } = .next t → Inv t

/-- Decoding an encoded instruction gives it back, under every injective opcode map. Rests on 30_encoding.md
sections 1, 2 and 4 (decision D1). -/
def Obligations.DecodeOfEncodeUnderAnyOpcodeMap : Prop :=
  (∀ map : Opcode → Word, (∀ a b : Opcode, map a = map b → a = b) →
      ∀ (i : Instr) (rest : List Word), decodeWith map (encodeWith map i ++ rest) = .ok (i, rest)) ∧
    ∀ (i : Instr) (rest : List Word), decode (encode i ++ rest) = .ok (i, rest)

/-- A decoded instruction encodes to exactly the Words it was decoded from. Rests on 30_encoding.md sections 1 to 3. -/
def Obligations.EncodeOfDecodeGivesTheWords : Prop :=
  ∀ (ws rest : List Word) (i : Instr), decode ws = .ok (i, rest) → ws = encode i ++ rest

/-- Words written out from the encoding table decode to their instructions. Rests on 30_encoding.md section 4
(decision D1); 95_test_vectors.md section 1. -/
def Obligations.WrittenOutWordsDecode : Prop :=
  decode [1, 0, 5, 3, 0, 3, 41] = .ok (.movDword 0 5, [3, 0, 3, 41]) ∧
    decode [3, 0, 3, 41] = .ok (.addDword 0 3, [41]) ∧ decode [41] = .ok (.halt, []) ∧
    decode [29, 8] = .ok (.call 8, []) ∧ decode [34, 0, 8] = .ok (.writeWordReg 0 8, []) ∧
    decode [42, 5] = .ok (.int 5, []) ∧ decode [25, -6] = .ok (.je (-6), [])

/-- A step that fetches a Word outside 1 to 42 as an opcode faults with ILLEGAL_OPCODE, and one that fetches a Word
of 1 to 42 does not. Formalises R71. -/
def Obligations.IllegalOpcodeFaults : Prop :=
  ∀ (s : State) (op : Word), s.status = .running → 0 ≤ (s.reg .rip).toInt →
    s.program[(s.reg .rip).toNat]? = some op →
    (op.toInt < 1 ∨ 42 < op.toInt → step s = .next (s.faultedAt .illegalOpcode op)) ∧
      (1 ≤ op.toInt ∧ op.toInt ≤ 42 → ∀ (t : State) (info f : Word), step s = .next t →
        t.status ≠ .faulted .illegalOpcode info f)

/-- An instruction whose operand Words run past the end of the program faults with FETCH_RANGE. Rests on
30_encoding.md section 1 (decision D16); 60_exceptions.md section 3. -/
def Obligations.TruncatedInstructionFaults : Prop :=
  ∀ (s : State) (o : Opcode) (ops : List Word), s.status = .running → 0 ≤ (s.reg .rip).toInt →
    (s.reg .rip).toInt < s.program.length → s.program.drop (s.reg .rip).toNat = o.word :: ops →
    ops.length < o.operandCount →
    step s = .next (s.faultedAt .fetchRange (s.reg .rip + BitVec.ofNat 32 (ops.length + 1)))

/-- The valid register indices are exactly 0 to 8, one per register, in the order of the table. Rests on 10_state.md
section 1 (decision D24). -/
def Obligations.RegisterIndexTable : Prop :=
  [Reg.r1, .r2, .r3, .r4, .r5, .r6, .rbp, .rsp, .rip].map Reg.index = [0, 1, 2, 3, 4, 5, 6, 7, 8] ∧
    ∀ w : Word, (∃ r : Reg, r.index = w) ↔ 0 ≤ w.toInt ∧ w.toInt ≤ 8

/-- A step at an instruction is exec of that instruction. Rests on 70_reset_and_hazards.md section 2 (decision D2);
30_encoding.md section 1. -/
def Obligations.StepRunsDecodedInstruction : Prop :=
  ∀ (s : State) (i : Instr) (rest : List Word), s.status = .running → 0 ≤ (s.reg .rip).toInt →
    (s.reg .rip).toInt < s.program.length → decode (s.program.drop (s.reg .rip).toNat) = .ok (i, rest) →
    step s = exec i s

/-- At the boundary ip >= PLEN halts the run and ip < 0 faults. Rests on 70_reset_and_hazards.md section 2 (decision
D16). -/
def Obligations.BoundaryCheckHaltsOrFaults : Prop :=
  ∀ s : State, s.status = .running →
    ((s.program.length : Int) ≤ (s.reg .rip).toInt → step s = .next { s with status := .halted }) ∧
      ((s.reg .rip).toInt < 0 → step s = .next (s.faultedAt .fetchRange (s.reg .rip)))

/-- A run becomes HALTED only at a boundary with ip >= PLEN, and then nothing else changes. Rests on
70_reset_and_hazards.md sections 2 and 3. -/
def Obligations.HaltedOnlyByTheBoundary : Prop :=
  ∀ s t : State, step s = .next t → t.status = .halted → s.status ≠ .halted →
    s.status = .running ∧ (s.program.length : Int) ≤ (s.reg .rip).toInt ∧ t = { s with status := .halted }

/-- A run that has ended never changes again (the model answers the same state: log entry 4). Rests on 10_state.md
section 7 (decision D21); 60_exceptions.md section 2. -/
def Obligations.EndedRunStaysAsItIs : Prop :=
  ∀ (s : State) (k : Nat), s.ended = true → Host.Core.run Sys2Proof.core k s = .next s

/-- Every step answers a next state, but for a host response of the wrong shape. Rests on 47_system.md section 2
(decision D19); 70_reset_and_hazards.md section 2. Part of it is the model's choice (log entries 2 and 3 and 4). -/
def Obligations.StepStopsOnlyOnAMisfitResponse : Prop :=
  ∀ s : State,
    (∀ (req : Request) (resp : Response) (h : List Response), s.status = .blocked req → s.hostAnswers = resp :: h →
      Response.fits req.call resp = false → step s = .fault .hostProtocol) ∧
    ((∀ (req : Request) (resp : Response) (h : List Response), s.status = .blocked req → s.hostAnswers = resp :: h →
      Response.fits req.call resp = true) → ∃ t : State, step s = .next t)

/-- No step changes the program. Rests on 10_state.md section 4; 20_memory.md section 6. -/
def Obligations.ProgramIsNeverWritten : Prop :=
  ∀ s t : State, step s = .next t → t.program = s.program

/-- Fault entry changes nothing but the status and ip, which goes back to the faulting instruction. Rests on
60_exceptions.md section 2 (decision D17). Part of it is the model's choice (log entry 2). -/
def Obligations.FaultsArePrecise : Prop :=
  ∀ (s t : State) (c : FaultCause) (info f : Word), step s = .next t → t.status = .faulted c info f →
    (s.status = .running → f = s.reg .rip ∧ t = s.faultedAt c info) ∧
      ∀ req : Request, s.status = .blocked req → f = req.ip0 ∧ t = respondFault s req c info

/-- An instruction raises only the fault causes that the table of faults gives it. Rests on 60_exceptions.md section
1 (decision D18). -/
def Obligations.FaultCausesFollowTheTable : Prop :=
  ∀ (i : Instr) (s t : State) (c : FaultCause) (info f : Word), s.status = .running → exec i s = .next t →
    t.status = .faulted c info f → mayRaise i c = true

/-- A well-formed instruction raises only faults that the state decides. Rests on 60_exceptions.md sections 1 and 3;
30_encoding.md section 5. -/
def Obligations.WellFormedFaultsDependOnStateOnly : Prop :=
  ∀ (i : Instr) (s t : State) (c : FaultCause) (info f : Word), i.wellFormed = true → s.status = .running →
    exec i s = .next t → t.status = .faulted c info f → mayRaiseWellFormed i c = true

/-- MOV_DWORD and MOV_REG copy their source into the destination and change nothing else. Formalises R87, R88. -/
def Obligations.MoveRules : Prop :=
  DwordRule .movDword 1 (fun d _ b => oneWrite d b) keepFlags ∧
    RegRule .movReg 2 (fun d _ b => oneWrite d b) keepFlags

/-- ADD_DWORD and ADD_REG write the wrapped sum and all five flags. Formalises R89, R90. -/
def Obligations.AddRules : Prop :=
  DwordRule .addDword 3 (fun d a b => oneWrite d (wrapped (a.toInt + b.toInt)))
      (fun a b _ => sumFlags (a.toInt + b.toInt)) ∧
    RegRule .addReg 4 (fun d a b => oneWrite d (wrapped (a.toInt + b.toInt)))
      (fun a b _ => sumFlags (a.toInt + b.toInt))

/-- SUB_DWORD and SUB_REG write the wrapped difference and all five flags. Formalises R91, R92. -/
def Obligations.SubRules : Prop :=
  DwordRule .subDword 5 (fun d a b => oneWrite d (wrapped (a.toInt - b.toInt)))
      (fun a b _ => sumFlags (a.toInt - b.toInt)) ∧
    RegRule .subReg 6 (fun d a b => oneWrite d (wrapped (a.toInt - b.toInt)))
      (fun a b _ => sumFlags (a.toInt - b.toInt))

/-- MUL_DWORD and MUL_REG write the wrapped product, OVERFLOW, and clear the other flags. Formalises R94, R95. -/
def Obligations.MulRules : Prop :=
  DwordRule .mulDword 7 (fun d a b => oneWrite d (wrapped (a.toInt * b.toInt)))
      (fun a b _ => productFlags (a.toInt * b.toInt)) ∧
    RegRule .mulReg 8 (fun d a b => oneWrite d (wrapped (a.toInt * b.toInt)))
      (fun a b _ => productFlags (a.toInt * b.toInt))

/-- DIV_DWORD and DIV_REG truncate, write the remainder to r6 last, and fault on divisor 0. Rests on
40_arithmetic.md section 6 (decision D7). -/
def Obligations.DivRules : Prop :=
  DwordChecks .divDword 9 ∧ RegChecks .divReg 10 ∧
    (∀ (s : State) (d : Reg) (imm : Word), DivEffect (.divDword d.index imm) s d (s.operand 2 d) imm) ∧
    ∀ (s : State) (d r : Reg), DivEffect (.divReg d.index r.index) s d (s.operand 2 d) (s.operand 2 r)

/-- XOR, OR and AND, both forms, write the bitwise result and change nothing else. Formalises R101, R102, R103,
R104, R105, R106. -/
def Obligations.XorOrAndRules : Prop :=
  DwordRule .xorDword 11 (fun d a b => oneWrite d (a ^^^ b)) keepFlags ∧
    RegRule .xorReg 12 (fun d a b => oneWrite d (a ^^^ b)) keepFlags ∧
    DwordRule .orDword 13 (fun d a b => oneWrite d (a ||| b)) keepFlags ∧
    RegRule .orReg 14 (fun d a b => oneWrite d (a ||| b)) keepFlags ∧
    DwordRule .andDword 15 (fun d a b => oneWrite d (a &&& b)) keepFlags ∧
    RegRule .andReg 16 (fun d a b => oneWrite d (a &&& b)) keepFlags

/-- NOT_DWORD and NOT_REG write -v - 1 of their second operand. Rests on 41_bitwise.md section 4 (decision D8). -/
def Obligations.NotRules : Prop :=
  DwordRule .notDword 17 (fun d _ b => oneWrite d (wrapped (-b.toInt - 1))) keepFlags ∧
    RegRule .notReg 18 (fun d _ b => oneWrite d (wrapped (-b.toInt - 1))) keepFlags

/-- INC and DEC add and subtract one, and write only OVERFLOW and only UNDERFLOW. Formalises R110, R111. -/
def Obligations.IncDecRules : Prop :=
  UnaryChecks .inc 19 ∧ UnaryChecks .dec 20 ∧
    (∀ (s : State) (d : Reg), Becomes (.inc d.index) s 1 (oneWrite d (wrapped ((s.operand 1 d).toInt + 1)))
      { s.flags with overflow := decide ((s.operand 1 d).toInt = 2 ^ 31 - 1) } SameData) ∧
    ∀ (s : State) (d : Reg), Becomes (.dec d.index) s 1 (oneWrite d (wrapped ((s.operand 1 d).toInt - 1)))
      { s.flags with underflow := decide ((s.operand 1 d).toInt = -2 ^ 31) } SameData

/-- CMP_DWORD and CMP_REG set exactly one comparison flag, with opposite orientations, and write no register. Rests
on 43_compare.md section CMP (decision D9, conflict C3). Part of it is the model's choice (log entry 8). -/
def Obligations.CompareRules : Prop :=
  DwordRule .cmpDword 21 (fun _ _ _ => noWrite) (fun a b f =>
      { f with greater := decide (a.toInt > b.toInt), lower := decide (a.toInt < b.toInt), equal := decide (a = b) }) ∧
    RegRule .cmpReg 22 (fun _ _ _ => noWrite) (fun a b f =>
      { f with greater := decide (b.toInt > a.toInt), lower := decide (b.toInt < a.toInt), equal := decide (a = b) })

/-- The alternative CMP_REG_ORDER makes CMP_REG match CMP_DWORD and never changes EQUAL, OVERFLOW or UNDERFLOW.
Rests on 93_implementation_defined.md section 1 item 10 (decision D9). -/
def Obligations.CompareOrderParameter : Prop :=
  ∀ (a b : Word) (f : Flags),
    cmpRegFlagsIn .firstGtSecond a b f = cmpDwordFlags a b f ∧
      (cmpRegFlagsIn .firstGtSecond a b f).equal = (cmpRegFlagsIn .secondGeFirst a b f).equal ∧
      (cmpRegFlagsIn .firstGtSecond a b f).overflow = (cmpRegFlagsIn .secondGeFirst a b f).overflow ∧
      (cmpRegFlagsIn .firstGtSecond a b f).underflow = (cmpRegFlagsIn .secondGeFirst a b f).underflow

/-- LABEL changes nothing but ip, whatever its operand. Rests on 44_control.md section 2 (decision D26). -/
def Obligations.LabelFallsThrough : Prop :=
  (∀ id : Word, encode (.label id) = [23, id]) ∧
    ∀ (s : State) (id : Word), Becomes (.label id) s 1 noWrite s.flags SameData

/-- JMP, JE, JNE, JG and JB set ip by their offset exactly when their condition holds. Formalises R119, R120, R121,
R122, R123. -/
def Obligations.JumpRules : Prop :=
  JumpRule .jmp 24 (fun _ => true) ∧ JumpRule .je 25 (fun f => f.equal) ∧ JumpRule .jne 26 (fun f => !f.equal) ∧
    JumpRule .jg 27 (fun f => f.greater) ∧ JumpRule .jb 28 (fun f => f.lower)

/-- CALL pushes its own index and continues at tgt + 1, or faults on a full stack. Formalises R124. -/
def Obligations.CallRule : Prop :=
  (∀ tgt : Word, encode (.call tgt) = [29, tgt]) ∧
    ∀ (s : State) (tgt : Word),
      (s.stack.sp = 255 → exec (.call tgt) s = .next (s.faultedAt .stackOverflow (s.reg .rip))) ∧
        (s.stack.sp < 255 → Becomes (.call tgt) s 1 (oneWrite .rip tgt) s.flags
          fun s t => Pushed s t (s.reg .rip) ∧ SameMemory s t ∧ SameRun s t)

/-- RETN pops the return index and continues at a + 2, and on an empty stack does exactly what HALT does. Formalises
R125. -/
def Obligations.ReturnRule : Prop :=
  encode .retn = [30] ∧
    ∀ s : State,
      (s.stack.sp = 0 → exec .retn s = exec .halt s ∧
        Becomes .retn s 0 (oneWrite .rip (BitVec.ofNat 32 s.program.length)) s.flags SameData) ∧
      (0 < s.stack.sp → Becomes .retn s 0 (oneWrite .rip (wrapped ((s.stack.slot s.stack.sp).toInt + 1))) s.flags
        fun s t => Popped s t ∧ SameMemory s t ∧ SameRun s t)

/-- A RETN that finds the stack as a CALL left it continues just after that CALL. Rests on 44_control.md section 4
(CALL/RETN pairing). -/
def Obligations.CallThenReturnResumesAfterTheCall : Prop :=
  ∀ (s : State) (tgt : Word), s.stack.sp < 255 →
    ∃ t : State, exec (.call tgt) s = .next t ∧ ∀ u : State, u.stack = t.stack →
      ∃ v : State, exec .retn u = .next v ∧ v.reg .rip = s.reg .rip + 2 ∧ v.stack.sp = s.stack.sp

/-- WRITE_BYTE_DWORD and WRITE_BYTE_REG check the value, then the address, and store one byte. Formalises R129,
R130. -/
def Obligations.ByteWriteRules : Prop :=
  (∀ addr imm : Word, encode (.writeByteDword addr imm) = [31, addr, imm]) ∧
    (∀ (s : State) (addr imm : Word), ByteStoreEffect (.writeByteDword addr imm) s addr imm) ∧
    RegChecks .writeByteReg 32 ∧
    ∀ (s : State) (a v : Reg), ByteStoreEffect (.writeByteReg a.index v.index) s (s.operand 2 a) (s.operand 2 v)

/-- WRITE_WORD_DWORD and WRITE_WORD_REG store four bytes big-endian, or fault. Formalises R131, R132. -/
def Obligations.WordWriteRules : Prop :=
  (∀ addr imm : Word, encode (.writeWordDword addr imm) = [33, addr, imm]) ∧
    (∀ (s : State) (addr imm : Word), WordStoreEffect (.writeWordDword addr imm) s addr imm) ∧
    RegChecks .writeWordReg 34 ∧
    ∀ (s : State) (a v : Reg), WordStoreEffect (.writeWordReg a.index v.index) s (s.operand 2 a) (s.operand 2 v)

/-- READ_BYTE_DWORD and READ_BYTE_REG load a sign-extended byte, or fault. Rests on 45_memory_ops.md section 3
(decision D13). -/
def Obligations.ByteReadRules : Prop :=
  DwordChecks .readByteDword 35 ∧ RegChecks .readByteReg 36 ∧
    (∀ (s : State) (d : Reg) (addr : Word), ByteLoadEffect (.readByteDword d.index addr) s d addr) ∧
    ∀ (s : State) (d a : Reg), ByteLoadEffect (.readByteReg d.index a.index) s d (s.operand 2 a)

/-- READ_WORD_DWORD and READ_WORD_REG load a big-endian Word, or fault. Formalises R135, R136. -/
def Obligations.WordReadRules : Prop :=
  DwordChecks .readWordDword 37 ∧ RegChecks .readWordReg 38 ∧
    (∀ (s : State) (d : Reg) (addr : Word), WordLoadEffect (.readWordDword d.index addr) s d addr) ∧
    ∀ (s : State) (d a : Reg), WordLoadEffect (.readWordReg d.index a.index) s d (s.operand 2 a)

/-- A Word, or a byte value in -128..127, that was written reads back unchanged. Rests on 45_memory_ops.md section 3
(the round trip); 20_memory.md section 2. -/
def Obligations.WrittenMemoryReadsBack : Prop :=
  (∀ (s : State) (a v : Word), 0 ≤ a.toInt ∧ a.toInt ≤ 65532 →
      ∃ t : State, exec (.writeWordDword a v) s = .next t ∧
        ∀ u : State, (∀ j : Nat, j < 4 → u.mem.byte (a.toNat + j) = t.mem.byte (a.toNat + j)) →
          ∀ d : Reg, ∃ w : State, exec (.readWordDword d.index a) u = .next w ∧
            w.reg d = v + (if d = .rip then 1 else 0)) ∧
    ∀ (s : State) (a v : Word), 0 ≤ a.toInt ∧ a.toInt ≤ 65535 → -128 ≤ v.toInt ∧ v.toInt ≤ 127 →
      ∃ t : State, exec (.writeByteDword a v) s = .next t ∧
        ∀ u : State, u.mem.byte a.toNat = t.mem.byte a.toNat →
          ∀ d : Reg, ∃ w : State, exec (.readByteDword d.index a) u = .next w ∧
            w.reg d = v + (if d = .rip then 1 else 0)

/-- PUSH and POP move a Word between a register and the top of the stack, or fault at its ends. Rests on 46_stack.md
(decisions D14 and D15). -/
def Obligations.PushAndPopRules : Prop :=
  UnaryChecks .push 39 ∧ UnaryChecks .pop 40 ∧
    ∀ (s : State) (d : Reg),
      (s.stack.sp = 255 → exec (.push d.index) s = .next (s.faultedAt .stackOverflow (s.operand 1 d))) ∧
        (s.stack.sp < 255 → Becomes (.push d.index) s 1 noWrite s.flags
          fun s t => Pushed s t (s.operand 1 d) ∧ SameMemory s t ∧ SameRun s t) ∧
        (s.stack.sp = 0 → exec (.pop d.index) s = .next (s.faultedAt .stackUnderflow 0)) ∧
        (0 < s.stack.sp → Becomes (.pop d.index) s 1 (oneWrite d (s.stack.slot s.stack.sp)) s.flags
          fun s t => Popped s t ∧ SameMemory s t ∧ SameRun s t)

/-- A POP that finds the stack as a PUSH left it gives the pushed value and the old depth. Rests on 46_stack.md
(PUSH and POP are last-in first-out). -/
def Obligations.PushThenPopMovesTheValue : Prop :=
  ∀ (s : State) (a b : Reg), s.stack.sp < 255 →
    ∃ t : State, exec (.push a.index) s = .next t ∧ ∀ u : State, u.stack = t.stack →
      ∃ v : State, exec (.pop b.index) u = .next v ∧
        v.reg b = s.operand 1 a + (if b = .rip then 1 else 0) ∧ v.stack.sp = s.stack.sp

/-- HALT sets ip to PLEN + 1, and the next step halts the run. Formalises R141. -/
def Obligations.HaltRule : Prop :=
  encode .halt = [41] ∧
    ∀ s : State,
      Becomes .halt s 0 (oneWrite .rip (BitVec.ofNat 32 s.program.length)) s.flags SameData ∧
        (s.stack.sp = 0 → exec .retn s = exec .halt s) ∧
        (s.status = .running → s.program.length ≤ 2147483646 →
          ∃ t : State, exec .halt s = .next t ∧ (t.reg .rip).toInt = s.program.length + 1 ∧
            step t = .next { t with status := .halted })

/-- INT faults on a bad string address, then on an unterminated string, then on an id outside 0..5. Rests on
47_system.md section 2 (decision D19); 20_memory.md section 2; 60_exceptions.md section 3. -/
def Obligations.IntChecksTheStringThenTheId : Prop :=
  (∀ id : Word, encode (.int id) = [42, id]) ∧
    ∀ (s : State) (id : Word),
      ((s.reg .r1).toInt < 0 ∨ 65535 < (s.reg .r1).toInt →
        exec (.int id) s = .next (s.faultedAt .memoryBounds (s.reg .r1))) ∧
      (0 ≤ (s.reg .r1).toInt ∧ (s.reg .r1).toInt ≤ 65535 →
        (∀ n : Nat, (s.reg .r1).toNat ≤ n → n ≤ 65535 → s.mem.byte n ≠ 0) →
        exec (.int id) s = .next (s.faultedAt .memoryBounds 65536)) ∧
      ∀ bs : List Byte, IsString s.mem (s.reg .r1) bs → id.toInt < 0 ∨ 5 < id.toInt →
        exec (.int id) s = .next (s.faultedAt .syscallId id)

/-- INT 5 writes 65536 to r1, and INT 0 to 4 block on a request with the string, r1, r2, r3 and the index of the
INT. Rests on 47_system.md section 2 (decision D19). -/
def Obligations.IntRunsOrBlocks : Prop :=
  ∀ (s : State) (bs : List Byte), IsString s.mem (s.reg .r1) bs →
    Becomes (.int 5) s 1 (oneWrite .r1 65536) s.flags SameData ∧
      ∀ c : HostCall, exec (.int c.id) s = .next { s with
        regs := { s.regs with rip := s.reg .rip + 1 },
        status := .blocked { call := c, text := bs, arg1 := s.reg .r1, arg2 := s.reg .r2, arg3 := s.reg .r3,
                             ip0 := s.reg .rip } }

/-- Only an INT blocks the engine, and it changes nothing but ip and the status. Rests on 60_exceptions.md section
4; 47_system.md section 2. -/
def Obligations.BlockedOnlyByInt : Prop :=
  ∀ (s t : State) (req : Request), s.status = .running → step s = .next t → t.status = .blocked req →
    (∃ rest : List Word, decode (s.program.drop (s.reg .rip).toNat) = .ok (.int req.call.id, rest)) ∧
      req.arg1 = s.reg .r1 ∧ req.arg2 = s.reg .r2 ∧ req.arg3 = s.reg .r3 ∧ req.ip0 = s.reg .rip ∧
      t = { s with regs := { s.regs with rip := s.reg .rip + 1 }, status := .blocked req }

/-- A successful response writes its result, and the engine runs on. Rests on 47_system.md section 2 (decision D19);
20_memory.md section 2. Part of it is the model's choice (log entry 2). -/
def Obligations.ResponseStepResumes : Prop :=
  ∀ (s : State) (req : Request) (h : List Response), s.status = .blocked req →
    (∀ bs : List Byte, req.call = .readLine → s.hostAnswers = .line bs :: h →
      0 ≤ (s.reg .r2).toInt ∧ (s.reg .r2).toInt + bs.length ≤ 65535 →
      Resumes s (some (BitVec.ofNat 32 bs.length)) fun s t =>
        (∀ j (_ : j < bs.length), t.mem.byte ((s.reg .r2).toNat + j) = bs[j]) ∧
          t.mem.byte ((s.reg .r2).toNat + bs.length) = 0 ∧
          ∀ n : Nat, n < (s.reg .r2).toNat ∨ (s.reg .r2).toNat + bs.length < n → t.mem.byte n = s.mem.byte n) ∧
      (∀ w : Word, req.call = .readFileByte ∨ req.call = .fileSize → s.hostAnswers = .word w :: h →
        Resumes s (some w) SameMemory) ∧
      (req.call = .writeLine ∨ req.call = .writeFileByte → s.hostAnswers = .done :: h → Resumes s none SameMemory)

/-- A failed response faults with SYSCALL_IO, and a line that does not fit with MEMORY_BOUNDS. Rests on 47_system.md
section 2 (decision D19); 60_exceptions.md sections 2 and 3. Part of it is the model's choice (log entry 2). -/
def Obligations.ResponseStepFaults : Prop :=
  ∀ (s : State) (req : Request) (h : List Response), s.status = .blocked req →
    (s.hostAnswers = .fail :: h → step s = .next (respondFault s req .syscallIo req.call.id)) ∧
      ∀ bs : List Byte, req.call = .readLine → s.hostAnswers = .line bs :: h →
        (s.reg .r2).toInt < 0 ∨ 65535 < (s.reg .r2).toInt + bs.length →
        step s = .next (respondFault s req .memoryBounds (s.reg .r2))

/-- An INT whose response step faults leaves the state before the INT, but for the status and the response taken.
Rests on 60_exceptions.md section 2 (precision of an INT that fails at the response step). Part of it is the
model's choice (log entry 2). -/
def Obligations.FailedSystemCallLeavesTheStateBeforeIt : Prop :=
  ∀ (s t u : State) (id : Word) (h : List Response) (c : FaultCause) (info f : Word), s.status = .running →
    exec (.int id) s = .next t → (∃ req : Request, t.status = .blocked req) →
    step { t with hostAnswers := h } = .next u → u.status = .faulted c info f →
    u = { s with status := .faulted c info (s.reg .rip), hostAnswers := h.tail }

/-- With no response the engine stays BLOCKED however many steps are asked of it. Rests on 47_system.md section 2 (a
host that never responds). Part of it is the model's choice (log entries 2 and 4). -/
def Obligations.UnansweredRequestBlocksForever : Prop :=
  ∀ (s : State) (req : Request) (k : Nat), s.status = .blocked req → s.hostAnswers = [] →
    Host.Core.run Sys2Proof.core k s = .next s

/-- The host sees the final state, and only the final state; the exit code is r1. Rests on 10_state.md sections 7
and 9 (decision D31). -/
def Obligations.HostSeesTheFinalState : Prop :=
  ∀ s : State,
    (s.ended = false → s.hostView = none ∧ s.exitCode = none) ∧
      (s.ended = true → s.exitCode = some (s.reg .r1) ∧ ∃ v : HostView, s.hostView = some v ∧ v.regs = s.regs ∧
        v.flags = s.flags ∧ v.mem = s.mem ∧ v.sp = s.stack.sp ∧ v.live.length = s.stack.sp ∧
        (∀ n : Nat, n < s.stack.sp → v.live[n]? = some (s.stack.slot (n + 1))) ∧
        (s.status = .halted → v.fault = none) ∧
        ∀ (c : FaultCause) (info f : Word), s.status = .faulted c info f → v.fault = some (c, info, f))

/-- No instruction changes a flag outside its row of the flag table. Rests on 10_state.md section 3 (decisions D6
and D30). -/
def Obligations.FlagsWrittenOnlyByTheTable : Prop :=
  ∀ (i : Instr) (s t : State), exec i s = .next t →
    ((flagRow i).1 = false → t.flags.overflow = s.flags.overflow) ∧
      ((flagRow i).2.1 = false → t.flags.underflow = s.flags.underflow) ∧
      ((flagRow i).2.2 = false → t.flags.greater = s.flags.greater ∧ t.flags.lower = s.flags.lower ∧
        t.flags.equal = s.flags.equal)

/-- What an instruction does to the rest of the state depends on the flags only through the one flag a conditional
jump reads. Rests on 10_state.md section 3. -/
def Obligations.FlagsReadOnlyByConditionalJumps : Prop :=
  ∀ (i : Instr) (s t : State) (f g : Flags), agreeOnRead i f g → exec i { s with flags := f } = .next t →
    ∃ u : State, exec i { s with flags := g } = .next u ∧ { u with flags := t.flags } = t

/-- Stack slots that are not live influence nothing that a step does or that the host sees. Rests on 10_state.md
sections 6 and 8; 93_implementation_defined.md section 2 item 31. Part of it is the model's choice (log entry
4). -/
def Obligations.StaleStackSlotsAreUnobservable : Prop :=
  ∀ s s' t : State, SameButStale s s' → step s = .next t →
    ∃ t' : State, step s' = .next t' ∧ SameButStale t t' ∧ t'.hostView = t.hostView

/-- No instruction changes a register that is neither its destination, DIV's r6, INT's r1, nor rip. Rests on
10_state.md section 1 (implicit uses of registers). -/
def Obligations.RegistersWrittenOnlyWhereNamed : Prop :=
  ∀ (i : Instr) (s t : State) (r : Reg), exec i s = .next t → r ≠ .rip → ¬ mayWrite i r → t.reg r = s.reg r

/-- Memory changes only by WRITE instructions and by the line that answers an INT 0, and the call stack only by
CALL, RETN, PUSH and POP. Rests on 20_memory.md section 1; 47_system.md section 2 (decision D19). Part of it is
the model's choice (log entry 2). -/
def Obligations.StorageSpacesReachedOnlyByTheirInstructions : Prop :=
  (∀ (i : Instr) (s t : State), exec i s = .next t →
      (writesMemory i = false → SameMemory s t) ∧ (usesStack i = false → SameStack s t) ∧
        t.program = s.program ∧ t.hostAnswers = s.hostAnswers) ∧
    ∀ s t : State, step s = .next t →
      (¬ SameMemory s t →
        (s.status = .running ∧ ∃ (i : Instr) (rest : List Word),
          decode (s.program.drop (s.reg .rip).toNat) = .ok (i, rest) ∧ writesMemory i = true) ∨
        ∃ (req : Request) (bs : List Byte) (h : List Response),
          s.status = .blocked req ∧ req.call = .readLine ∧ s.hostAnswers = .line bs :: h) ∧
      (¬ SameStack s t →
        s.status = .running ∧ ∃ (i : Instr) (rest : List Word),
          decode (s.program.drop (s.reg .rip).toNat) = .ok (i, rest) ∧ usesStack i = true)

/-- An instruction that neither transfers control nor names rip as its destination is followed by the next
instruction. Rests on 10_state.md section 2; 44_control.md section 1. -/
def Obligations.SequentialFlowSkipsTheOperands : Prop :=
  ∀ (i : Instr) (s t : State), s.status = .running → transfersControl i = false → ¬ mayWrite i .rip →
    exec i s = .next t → t.status = .running →
    t.reg .rip = s.reg .rip + 1 + BitVec.ofNat 32 i.opcode.operandCount

/-- Only a step that fetches an illegal opcode Word raises ILLEGAL_OPCODE. Rests on 60_exceptions.md section 1
(decision D18); 30_encoding.md section 5. Part of it is the model's choice (log entry 8). -/
def Obligations.IllegalOpcodeRaisedOnlyByTheFetch : Prop :=
  ∀ (s t : State) (info f : Word), s.ended = false → step s = .next t → t.status = .faulted .illegalOpcode info f →
    s.status = .running ∧ 0 ≤ (s.reg .rip).toInt ∧ f = s.reg .rip ∧
      s.program[(s.reg .rip).toNat]? = some info ∧ (info.toInt < 1 ∨ 42 < info.toInt)

/-- Under every injective opcode map a step runs the instruction encoded at ip, and faults on a Word the map does
not assign. Rests on 30_encoding.md sections 4 and 5 (decision D1); 92_eei_decisions.md row D1. Part of it is
the model's choice (log entry 8). -/
def Obligations.StepUnderAnyOpcodeMap : Prop :=
  (∀ s : State, step s = stepWith Opcode.word s) ∧
    ∀ map : Opcode → Word, (∀ a b : Opcode, map a = map b → a = b) →
      ∀ s : State, s.status = .running → 0 ≤ (s.reg .rip).toInt →
        (∀ (i : Instr) (rest : List Word), s.program.drop (s.reg .rip).toNat = encodeWith map i ++ rest →
          stepWith map s = exec i s) ∧
        ∀ op : Word, s.program[(s.reg .rip).toNat]? = some op → (∀ o : Opcode, map o ≠ op) →
          stepWith map s = .next (s.faultedAt .illegalOpcode op)

/-- What an instruction does depends on the program only through its length. Rests on 10_state.md section 4;
30_encoding.md section 4 (decision D1). -/
def Obligations.ExecSeesOnlyTheProgramLength : Prop :=
  ∀ (i : Instr) (s t : State) (p : List Word), p.length = s.program.length → exec i s = .next t →
    exec i { s with program := p } = .next { t with program := p }
end

