-- ==== Sys2Proof/Laws/Decode.lean ====
section
/-! SUPPORT. The opcode map and the shape of encoded instructions. -/

namespace Sys2Proof

theorem Opcode.mem_all (o : Opcode) : o ∈ Opcode.all := by cases o <;> decide

/-- The default `OPCODE_MAP` assigns 42 distinct Words (R69). -/
theorem Opcode.word_injective : Function.Injective Opcode.word := by
  intro a b h
  have : ∀ a ∈ Opcode.all, ∀ b ∈ Opcode.all, Opcode.word a = Opcode.word b → a = b := by decide
  exact this a (Opcode.mem_all a) b (Opcode.mem_all b) h

/-- The lookup finds an opcode only at its own Word. -/
theorem lookupOpcode_some {map : Opcode → Word} {w : Word} {o : Opcode} (h : lookupOpcode map w = some o) :
    map o = w := by simpa using List.find?_some h

/-- The lookup fails exactly on the Words that the map does not assign (R71). -/
theorem lookupOpcode_eq_none {map : Opcode → Word} {w : Word} :
    lookupOpcode map w = none ↔ ∀ o : Opcode, map o ≠ w := by
  simp only [lookupOpcode, List.find?_eq_none, decide_eq_true_eq]
  exact ⟨fun h o => h o (Opcode.mem_all o), fun h o _ => h o⟩

/-- Under a map that assigns distinct Words, the lookup of an opcode's Word finds that opcode. -/
theorem lookupOpcode_self {map : Opcode → Word} (hm : Function.Injective map) (o : Opcode) :
    lookupOpcode map (map o) = some o := by
  cases h : lookupOpcode map (map o) with
  | none => exact absurd rfl (lookupOpcode_eq_none.mp h o)
  | some p => exact congrArg some (hm (lookupOpcode_some h))

theorem Instr.operands_length (i : Instr) : i.operands.length = i.opcode.operandCount := by cases i <;> rfl

end Sys2Proof
end

