-- ==== Sys2Proof/Laws/State.lean ====
section
/-! SUPPORT. The small lemmas of the state: one per field per update, and the register file's read-after-write. -/

namespace Sys2Proof.Machine

/-! ## The parameters as numerals -/

@[simp] theorem memSize_eq : Config.memSize = 65536 := rfl
@[simp] theorem stackUsable_eq : Config.stackUsable = 255 := rfl
@[simp] theorem byteMax_eq : Config.byteMax = 127 := rfl
@[simp] theorem byteMin_eq : Config.byteMin = -128 := rfl
@[simp] theorem maxPlen_eq : Config.maxPlen = 2147483646 := rfl

/-! ## Registers and fields -/

theorem RegFile.get_set (f : RegFile) (d r : Reg) (v : Word) : (f.set d v).get r = if r = d then v else f.get r := by
  cases d <;> cases r <;> rfl

theorem RegFile.ext_get {f g : RegFile} (h : ∀ r, f.get r = g.get r) : f = g := by
  cases f; cases g
  simp only [RegFile.mk.injEq]
  exact ⟨h .r1, h .r2, h .r3, h .r4, h .r5, h .r6, h .rbp, h .rsp, h .rip⟩

theorem RegFile.set_get (f : RegFile) (r : Reg) : f.set r (f.get r) = f := by cases r <;> rfl

@[simp] theorem State.reg_setReg (s : State) (d r : Reg) (v : Word) :
    (s.setReg d v).reg r = if r = d then v else s.reg r := RegFile.get_set s.regs d r v
@[simp] theorem State.reg_setIp (s : State) (r : Reg) (v : Word) :
    (s.setIp v).reg r = if r = .rip then v else s.reg r := RegFile.get_set s.regs .rip r v
theorem State.ip_eq (s : State) : s.ip = s.reg .rip := rfl
@[simp] theorem State.setIp_ip (s : State) : s.setIp s.ip = s := by
  cases s; simp [State.setIp, State.setReg, State.ip, State.reg, RegFile.set_get]
@[simp] theorem State.setIp_setIp (s : State) (v w : Word) : (s.setIp v).setIp w = s.setIp w := rfl

@[simp] theorem State.flags_setReg (s : State) (d : Reg) (v : Word) : (s.setReg d v).flags = s.flags := rfl
@[simp] theorem State.mem_setReg (s : State) (d : Reg) (v : Word) : (s.setReg d v).mem = s.mem := rfl
@[simp] theorem State.stack_setReg (s : State) (d : Reg) (v : Word) : (s.setReg d v).stack = s.stack := rfl
@[simp] theorem State.program_setReg (s : State) (d : Reg) (v : Word) : (s.setReg d v).program = s.program := rfl
@[simp] theorem State.status_setReg (s : State) (d : Reg) (v : Word) : (s.setReg d v).status = s.status := rfl
@[simp] theorem State.hostAnswers_setReg (s : State) (d : Reg) (v : Word) : (s.setReg d v).hostAnswers = s.hostAnswers := rfl

@[simp] theorem State.flags_setIp (s : State) (v : Word) : (s.setIp v).flags = s.flags := rfl
@[simp] theorem State.mem_setIp (s : State) (v : Word) : (s.setIp v).mem = s.mem := rfl
@[simp] theorem State.stack_setIp (s : State) (v : Word) : (s.setIp v).stack = s.stack := rfl
@[simp] theorem State.program_setIp (s : State) (v : Word) : (s.setIp v).program = s.program := rfl
@[simp] theorem State.status_setIp (s : State) (v : Word) : (s.setIp v).status = s.status := rfl
@[simp] theorem State.hostAnswers_setIp (s : State) (v : Word) : (s.setIp v).hostAnswers = s.hostAnswers := rfl

@[simp] theorem State.flags_setFlags (s : State) (f : Flags) : (s.setFlags f).flags = f := rfl
@[simp] theorem State.mem_setFlags (s : State) (f : Flags) : (s.setFlags f).mem = s.mem := rfl
@[simp] theorem State.stack_setFlags (s : State) (f : Flags) : (s.setFlags f).stack = s.stack := rfl
@[simp] theorem State.program_setFlags (s : State) (f : Flags) : (s.setFlags f).program = s.program := rfl
@[simp] theorem State.status_setFlags (s : State) (f : Flags) : (s.setFlags f).status = s.status := rfl
@[simp] theorem State.hostAnswers_setFlags (s : State) (f : Flags) : (s.setFlags f).hostAnswers = s.hostAnswers := rfl

@[simp] theorem State.flags_takeFault (s : State) (c : FaultCause) (i ip0 : Word) : (s.takeFault c i ip0).flags = s.flags := rfl
@[simp] theorem State.mem_takeFault (s : State) (c : FaultCause) (i ip0 : Word) : (s.takeFault c i ip0).mem = s.mem := rfl
@[simp] theorem State.stack_takeFault (s : State) (c : FaultCause) (i ip0 : Word) : (s.takeFault c i ip0).stack = s.stack := rfl
@[simp] theorem State.program_takeFault (s : State) (c : FaultCause) (i ip0 : Word) : (s.takeFault c i ip0).program = s.program := rfl
@[simp] theorem State.status_takeFault (s : State) (c : FaultCause) (i ip0 : Word) : (s.takeFault c i ip0).status = .faulted c i ip0 := rfl
@[simp] theorem State.hostAnswers_takeFault (s : State) (c : FaultCause) (i ip0 : Word) : (s.takeFault c i ip0).hostAnswers = s.hostAnswers := rfl

@[simp] theorem State.flags_resume (s : State) : (s.resume).flags = s.flags := rfl
@[simp] theorem State.mem_resume (s : State) : (s.resume).mem = s.mem := rfl
@[simp] theorem State.stack_resume (s : State) : (s.resume).stack = s.stack := rfl
@[simp] theorem State.program_resume (s : State) : (s.resume).program = s.program := rfl
@[simp] theorem State.status_resume (s : State) : (s.resume).status = .running := rfl
@[simp] theorem State.hostAnswers_resume (s : State) : (s.resume).hostAnswers = s.hostAnswers := rfl

@[simp] theorem State.flags_haltRun (s : State) : (s.haltRun).flags = s.flags := rfl
@[simp] theorem State.mem_haltRun (s : State) : (s.haltRun).mem = s.mem := rfl
@[simp] theorem State.stack_haltRun (s : State) : (s.haltRun).stack = s.stack := rfl
@[simp] theorem State.program_haltRun (s : State) : (s.haltRun).program = s.program := rfl
@[simp] theorem State.status_haltRun (s : State) : (s.haltRun).status = .halted := rfl
@[simp] theorem State.hostAnswers_haltRun (s : State) : (s.haltRun).hostAnswers = s.hostAnswers := rfl


@[simp] theorem State.reg_setFlags (s : State) (f : Flags) (r : Reg) : (s.setFlags f).reg r = s.reg r := rfl
@[simp] theorem State.reg_haltRun (s : State) (r : Reg) : s.haltRun.reg r = s.reg r := rfl
@[simp] theorem State.reg_takeFault (s : State) (c : FaultCause) (i ip0 : Word) (r : Reg) :
    (s.takeFault c i ip0).reg r = if r = .rip then ip0 else s.reg r := RegFile.get_set s.regs .rip r ip0
@[simp] theorem State.reg_resume (s : State) (r : Reg) :
    s.resume.reg r = if r = .rip then wrap32 (s.ip.toInt + 1) else s.reg r := RegFile.get_set s.regs .rip r _
@[simp] theorem State.regs_setFlags (s : State) (f : Flags) : (s.setFlags f).regs = s.regs := rfl

/-- A register reads the same however the other fields are set. -/
@[simp] theorem State.reg_mk (regs : RegFile) (f : Flags) (m : Memory) (st : CallStack) (p : List Word) (q : Status)
    (h : List Response) (r : Reg) :
    ({ regs := regs, flags := f, mem := m, stack := st, program := p, status := q, hostAnswers := h } : State).reg r =
      regs.get r := rfl
@[simp] theorem State.regs_get (s : State) (r : Reg) : s.regs.get r = s.reg r := rfl

/-- Two states with the same registers, read one by one, and the same other fields are the same. -/
theorem State.ext_reg {s t : State} (hr : ∀ r, s.reg r = t.reg r) (hf : s.flags = t.flags) (hm : s.mem = t.mem)
    (hk : s.stack = t.stack) (hp : s.program = t.program) (hs : s.status = t.status)
    (hh : s.hostAnswers = t.hostAnswers) : s = t := by
  have h := RegFile.ext_get hr
  cases s; cases t; simp_all

/-- Fault entry at the instruction itself changes the status alone (R149). -/
theorem State.takeFault_self (s : State) (c : FaultCause) (i : Word) : s.takeFault c i s.ip = s.faultedAt c i := by
  simp [State.takeFault, State.faultedAt, State.ip_eq]

end Sys2Proof.Machine
end

