-- ==== Sys2Proof/Laws/Memory.lean ====
section
/-! SUPPORT. Sparse stores, data memory and the call stack: read after write, and the canonical form kept. -/

namespace Sys2Proof.Machine

/-! ## Sparse stores -/

theorem Cells.read_insert {w : Nat} (m : Cells w) (a b : Nat) (v : BitVec w) (h : ∀ c ∈ m, c.1 ≠ a) :
    Cells.read (Cells.insert a v m) b = if b = a then v else Cells.read m b := by
  induction m with
  | nil => simp only [Cells.insert, Cells.read, eq_comm]
  | cons c m ih =>
    obtain ⟨k, u⟩ := c
    have hk : k ≠ a := h (k, u) (by simp)
    have ih := ih (fun c hc => h c (by simp [hc]))
    simp only [Cells.insert]
    split
    · simp only [Cells.read, eq_comm]
    · simp only [Cells.read, ih]
      split <;> simp_all

theorem Cells.read_erase {w : Nat} (m : Cells w) (a b : Nat) :
    Cells.read (m.filter (fun c => decide (c.1 ≠ a))) b = if b = a then Cells.unlisted w else Cells.read m b := by
  induction m with
  | nil => simp [Cells.read]
  | cons c m ih =>
    obtain ⟨k, u⟩ := c
    by_cases hk : k = a
    · subst hk
      by_cases hb : b = k <;> simp_all [Cells.read, eq_comm]
    · by_cases hb : b = a
      · subst hb; simp_all [Cells.read, List.filter]
      · simp_all [Cells.read, List.filter]

/-- A cell written reads as written, and every other cell as before, in any store. -/
theorem Cells.read_write {w : Nat} (m : Cells w) (a b : Nat) (v : BitVec w) :
    Cells.read (Cells.write m a v) b = if b = a then v else Cells.read m b := by
  simp only [Cells.write]
  split
  · rw [Cells.read_erase]; simp_all
  · rw [Cells.read_insert _ _ _ _ (fun c hc => by simpa using (List.mem_filter.mp hc).2), Cells.read_erase]
    split <;> simp_all

theorem Cells.mem_insert {w : Nat} {m : Cells w} {a : Nat} {v : BitVec w} {c : Nat × BitVec w} :
    c ∈ Cells.insert a v m ↔ c = (a, v) ∨ c ∈ m := by
  induction m with
  | nil => simp [Cells.insert]
  | cons d m ih =>
    obtain ⟨k, u⟩ := d
    simp only [Cells.insert]
    split
    · simp
    · simp only [List.mem_cons, ih]; tauto

theorem Cells.insert_rising {w : Nat} {m : Cells w} {a : Nat} {v : BitVec w}
    (hm : m.Pairwise (fun c d => c.1 < d.1)) (h : ∀ c ∈ m, c.1 ≠ a) :
    (Cells.insert a v m).Pairwise (fun c d => c.1 < d.1) := by
  induction m with
  | nil => simp [Cells.insert]
  | cons d m ih =>
    obtain ⟨k, u⟩ := d
    have hk : k ≠ a := h (k, u) (by simp)
    rw [List.pairwise_cons] at hm
    simp only [Cells.insert]
    split
    · refine List.pairwise_cons.mpr ⟨fun c hc => ?_, List.pairwise_cons.mpr hm⟩
      rcases List.mem_cons.mp hc with rfl | hc
      · assumption
      · have := hm.1 c hc; simp only at this ⊢; omega
    · refine List.pairwise_cons.mpr ⟨fun c hc => ?_, ih hm.2 (fun c hc => h c (by simp [hc]))⟩
      rcases Cells.mem_insert.mp hc with rfl | hc
      · simp only; omega
      · exact hm.1 c hc

/-- A write at an index of the range keeps the canonical form. -/
theorem Cells.write_wf {w : Nat} {m : Cells w} {lo hi a : Nat} {v : BitVec w} (hm : Cells.wf m lo hi) (ha : lo ≤ a)
    (hb : a < hi) : Cells.wf (Cells.write m a v) lo hi := by
  have hr : Cells.wf (m.filter (fun c => decide (c.1 ≠ a))) lo hi :=
    ⟨hm.1.filter _, fun c hc => hm.2 c (List.mem_filter.mp hc).1⟩
  simp only [Cells.write]
  split
  · exact hr
  · refine ⟨Cells.insert_rising hr.1 (fun c hc => by simpa using (List.mem_filter.mp hc).2), fun c hc => ?_⟩
    rcases Cells.mem_insert.mp hc with rfl | hc
    · exact ⟨by assumption, ha, hb⟩
    · exact hr.2 c hc

@[simp] theorem Cells.wf_nil {w : Nat} (lo hi : Nat) : Cells.wf ([] : Cells w) lo hi :=
  ⟨List.Pairwise.nil, fun _ hc => absurd hc List.not_mem_nil⟩

/-! ## Data memory -/

theorem Memory.wf_nil : Memory.wf [] := Cells.wf_nil 0 Config.memSize


theorem Memory.byte_setByte (m : Memory) (a b : Nat) (v : Byte) :
    (m.setByte a v).byte b = if b = a then v else m.byte b := Cells.read_write m a b v

theorem Memory.setByte_wf {m : Memory} {a : Nat} {v : Byte} (hm : m.wf) (ha : a < Config.memSize) :
    (m.setByte a v).wf := Cells.write_wf hm (Nat.zero_le a) ha

/-- The four bytes of a stored Word, and every other byte as before (R47). -/
theorem Memory.byte_setWord (m : Memory) (a b : Nat) (v : Word) :
    (m.setWord a v).byte b =
      if b = a + 3 then wordByte v 3 else if b = a + 2 then wordByte v 2
      else if b = a + 1 then wordByte v 1 else if b = a then wordByte v 0 else m.byte b := by
  simp only [Memory.setWord, Memory.byte_setByte]

/-- The Word read is the big-endian sum of its bytes (R45). -/
theorem Memory.word_eq (m : Memory) (a : Nat) :
    m.word a = BitVec.ofNat 32 ((m.byte a).toNat * 2 ^ 24 + (m.byte (a + 1)).toNat * 2 ^ 16
      + (m.byte (a + 2)).toNat * 2 ^ 8 + (m.byte (a + 3)).toNat) := BitVec.ofInt_natCast 32 _

theorem Memory.setWord_wf {m : Memory} {a : Nat} {v : Word} (hm : m.wf) (ha : a + 3 < Config.memSize) :
    (m.setWord a v).wf := by
  have h : Config.memSize = 65536 := rfl
  exact setByte_wf (setByte_wf (setByte_wf (setByte_wf hm (by omega)) (by omega)) (by omega)) (by omega)

theorem Memory.setBytes_wf {m : Memory} {a : Nat} {bs : List Byte} (hm : m.wf) (ha : a + bs.length ≤ Config.memSize) :
    (m.setBytes a bs).wf := by
  induction bs generalizing m a with
  | nil => exact hm
  | cons b bs ih =>
    simp only [List.length_cons] at ha
    exact ih (setByte_wf hm (by omega)) (by omega)

/-- The bytes of a stored sequence, and every other byte as before (R50). -/
theorem Memory.byte_setBytes (m : Memory) (a b : Nat) (bs : List Byte) :
    (m.setBytes a bs).byte b = if h : a ≤ b ∧ b < a + bs.length then bs[b - a]'(by omega) else m.byte b := by
  induction bs generalizing m a with
  | nil => simp [Memory.setBytes]
  | cons v bs ih =>
    simp only [Memory.setBytes, ih, Memory.byte_setByte, List.length_cons]
    by_cases hb : b = a
    · subst hb; simp
    · by_cases hin : a ≤ b ∧ b < a + (bs.length + 1)
      · have h2 : a + 1 ≤ b ∧ b < a + 1 + bs.length := by omega
        rw [dif_pos h2, dif_pos hin]
        obtain ⟨j, rfl⟩ : ∃ j, b = a + 1 + j := ⟨b - (a + 1), by omega⟩
        have e1 : a + 1 + j - (a + 1) = j := by omega
        have e2 : a + 1 + j - a = j + 1 := by omega
        simp [e1, e2]
      · have h2 : ¬(a + 1 ≤ b ∧ b < a + 1 + bs.length) := by omega
        rw [dif_neg h2, dif_neg hin, if_neg hb]

theorem Memory.setLine_wf {m : Memory} {a : Nat} {bs : List Byte} (hm : m.wf)
    (ha : a + bs.length + 1 ≤ Config.memSize) : (m.setLine a bs).wf :=
  setBytes_wf hm (by simpa [Nat.add_assoc] using ha)

/-- The scan finds the bytes before the first 0 byte of its window (R49). -/
theorem Memory.scan_eq_some {m : Memory} {n a : Nat} {bs : List Byte} :
    m.scan n a = some bs ↔
      bs.length < n ∧ m.byte (a + bs.length) = 0 ∧
        ∀ j (hj : j < bs.length), bs[j] = m.byte (a + j) ∧ m.byte (a + j) ≠ 0 := by
  induction n generalizing a bs with
  | zero => simp [Memory.scan]
  | succ n ih =>
    simp only [Memory.scan]
    split
    · rename_i h0
      constructor
      · rintro ⟨rfl⟩; simp [h0]
      · rintro ⟨-, -, h⟩
        cases bs with
        | nil => rfl
        | cons b bs => exact absurd (by simpa using h0) (h 0 (by simp)).2
    · rename_i h0
      cases bs with
      | nil =>
        simp only [Option.map_eq_some_iff, List.length_nil, Nat.add_zero]
        constructor
        · rintro ⟨x, -, hx⟩; simp at hx
        · rintro ⟨-, h, -⟩; exact absurd h h0
      | cons b bs =>
        simp only [Option.map_eq_some_iff, List.cons.injEq, List.length_cons]
        constructor
        · rintro ⟨x, hx, hb, rfl⟩
          obtain ⟨h1, h2, h3⟩ := ih.mp hx
          refine ⟨by omega, by rw [← h2]; congr 1; omega, fun j hj => ?_⟩
          cases j with
          | zero => exact ⟨by simpa using hb.symm, h0⟩
          | succ j =>
            have := h3 j (by omega)
            have e : a + (j + 1) = a + 1 + j := by omega
            simpa [e] using this
        · rintro ⟨h1, h2, h3⟩
          refine ⟨bs, ih.mpr ⟨by omega, by rw [← h2]; congr 1; omega, fun j hj => ?_⟩, ?_, rfl⟩
          · have := h3 (j + 1) (by omega)
            have e : a + (j + 1) = a + 1 + j := by omega
            simpa [e] using this
          · simpa using (h3 0 (by omega)).1.symm

/-- The scan fails only when its window has no 0 byte (R49). -/
theorem Memory.scan_eq_none {m : Memory} {n a : Nat} : m.scan n a = none ↔ ∀ j, j < n → m.byte (a + j) ≠ 0 := by
  induction n generalizing a with
  | zero => simp [Memory.scan]
  | succ n ih =>
    simp only [Memory.scan]
    split
    · rename_i h0
      simp only [reduceCtorEq, false_iff, not_forall]
      exact ⟨0, by omega, by simpa using h0⟩
    · rename_i h0
      simp only [Option.map_eq_none_iff, ih]
      constructor
      · intro h j hj
        cases j with
        | zero => exact h0
        | succ j => have := h j (by omega); rwa [show a + 1 + j = a + (j + 1) by omega] at this
      · intro h j hj
        have := h (j + 1) (by omega)
        rwa [show a + (j + 1) = a + 1 + j by omega] at this

/-! ## The call stack -/

@[simp] theorem CallStack.sp_push (st : CallStack) (v : Word) : (st.push v).sp = st.sp + 1 := rfl
@[simp] theorem CallStack.sp_pop (st : CallStack) : st.pop.sp = st.sp - 1 := rfl
@[simp] theorem CallStack.slot_pop (st : CallStack) (n : Nat) : st.pop.slot n = st.slot n := rfl

theorem CallStack.slot_push (st : CallStack) (v : Word) (n : Nat) :
    (st.push v).slot n = if n = st.sp + 1 then v else st.slot n := Cells.read_write st.slots (st.sp + 1) n v

theorem CallStack.push_wf {st : CallStack} {v : Word} (h : st.wf) (hs : st.sp < Config.stackUsable) :
    (st.push v).wf := by
  have e : Config.stackUsable = 255 := rfl
  exact ⟨by simp only [CallStack.sp_push]; omega, Cells.write_wf h.2 (by omega) (by omega)⟩

theorem CallStack.pop_wf {st : CallStack} (h : st.wf) : st.pop.wf :=
  ⟨Nat.le_trans (Nat.sub_le _ _) h.1, h.2⟩

end Sys2Proof.Machine
end

