-- ==== Sys2Proof/Laws/Ops.lean ====
section
/-! SUPPORT. One lemma per shared operation that says once what it can do. -/

namespace Sys2Proof.Machine

/-! ## Register indices -/

@[simp] theorem checkReg_index (r : Reg) : checkReg r.index = some r := by cases r <;> rfl

/-- The check accepts exactly the index of the register it answers (R15). -/
theorem checkReg_eq_some {w : Word} {r : Reg} : checkReg w = some r ↔ w = r.index := by
  constructor
  · intro h
    apply BitVec.eq_of_toNat_eq
    simp only [checkReg] at h
    split at h <;> first | (cases h; simpa using by assumption) | cases h
  · rintro rfl; exact checkReg_index r

theorem checkReg_eq_none {w : Word} : checkReg w = none ↔ w.toInt < 0 ∨ 8 < w.toInt := by
  simp only [checkReg]
  split <;> simp only [BitVec.toInt] <;> simp_all
  omega

@[simp] theorem withReg_index (r : Reg) (k : Reg → HandlerResult) : withReg r.index k = k r := by simp [withReg]

theorem withReg_bad {w : Word} (h : w.toInt < 0 ∨ 8 < w.toInt) (k : Reg → HandlerResult) :
    withReg w k = .raised .registerIndex w := by simp [withReg, checkReg_eq_none.mpr h]

/-- A register check continues with the named register or raises `REGISTER_INDEX` (R15). -/
theorem withReg_cases (w : Word) (k : Reg → HandlerResult) :
    (∃ r : Reg, w = r.index ∧ withReg w k = k r) ∨
      ((w.toInt < 0 ∨ 8 < w.toInt) ∧ withReg w k = .raised .registerIndex w) := by
  cases h : checkReg w with
  | none => exact .inr ⟨checkReg_eq_none.mp h, by simp [withReg, h]⟩
  | some r => exact .inl ⟨r, checkReg_eq_some.mp h, by simp [withReg, h]⟩

theorem dwordForm_index (d : Reg) (imm : Word) (op : AluOp) (s : State) :
    dwordForm d.index imm op s = op d (s.reg d) imm s := by simp [dwordForm]

theorem regForm_index (d r : Reg) (op : AluOp) (s : State) :
    regForm d.index r.index op s = op d (s.reg d) (s.reg r) s := by simp [regForm]

theorem unaryForm_index (d : Reg) (op : Reg → State → HandlerResult) (s : State) :
    unaryForm d.index op s = op d s := by simp [unaryForm]

/-- What the DWORD fetch can do (R83). -/
theorem dwordForm_cases (rd imm : Word) (op : AluOp) (s : State) :
    (∃ d : Reg, rd = d.index ∧ dwordForm rd imm op s = op d (s.reg d) imm s) ∨
      ((rd.toInt < 0 ∨ 8 < rd.toInt) ∧ dwordForm rd imm op s = .raised .registerIndex rd) :=
  withReg_cases rd _

/-- What the REG fetch can do (R83): the first bad index, in operand order, raises. -/
theorem regForm_cases (rd rs : Word) (op : AluOp) (s : State) :
    (∃ d r : Reg, rd = d.index ∧ rs = r.index ∧ regForm rd rs op s = op d (s.reg d) (s.reg r) s) ∨
      ((rd.toInt < 0 ∨ 8 < rd.toInt) ∧ regForm rd rs op s = .raised .registerIndex rd) ∨
      (∃ d : Reg, rd = d.index ∧ (rs.toInt < 0 ∨ 8 < rs.toInt) ∧ regForm rd rs op s = .raised .registerIndex rs) := by
  rcases withReg_cases rd (fun d => withReg rs fun r => op d (s.reg d) (s.reg r) s) with ⟨d, hd, h⟩ | ⟨hd, h⟩
  · rcases withReg_cases rs (fun r => op d (s.reg d) (s.reg r) s) with ⟨r, hr, h'⟩ | ⟨hr, h'⟩
    · exact .inl ⟨d, r, hd, hr, h.trans h'⟩
    · exact .inr (.inr ⟨d, hd, hr, h.trans h'⟩)
  · exact .inr (.inl ⟨hd, h⟩)

/-- What the one-register fetch can do. -/
theorem unaryForm_cases (rd : Word) (op : Reg → State → HandlerResult) (s : State) :
    (∃ d : Reg, rd = d.index ∧ unaryForm rd op s = op d s) ∨
      ((rd.toInt < 0 ∨ 8 < rd.toInt) ∧ unaryForm rd op s = .raised .registerIndex rd) :=
  withReg_cases rd _

/-! ## The handler's frame: `ip = ip0 + k` before, `ip + 1` after -/

/-- The state a handler of an opcode runs in (R19). -/
abbrev State.inHandler (s : State) (o : Opcode) : State := s.setIp (s.ip + BitVec.ofNat 32 o.operandCount)

theorem runHandler_done {o : Opcode} {h : State → HandlerResult} {s t : State} (e : h (s.inHandler o) = .done t) :
    runHandler o h s = .next (t.setIp (t.ip + 1)) := by simp only [runHandler]; rw [e]

theorem runHandler_blocked {o : Opcode} {h : State → HandlerResult} {s t : State} (e : h (s.inHandler o) = .blocked t) :
    runHandler o h s = .next t := by simp only [runHandler]; rw [e]

theorem runHandler_raised {o : Opcode} {h : State → HandlerResult} {s : State} {c : FaultCause} {i : Word}
    (e : h (s.inHandler o) = .raised c i) : runHandler o h s = .next (s.faultedAt c i) := by
  simp only [runHandler]; rw [e]; exact congrArg _ (s.takeFault_self c i)

/-- Every way an instruction can end: it completed, it blocked, or it took a fault (R165). -/
theorem runHandler_cases (o : Opcode) (h : State → HandlerResult) (s : State) :
    (∃ t, h (s.inHandler o) = .done t ∧ runHandler o h s = .next (t.setIp (t.ip + 1))) ∨
      (∃ t, h (s.inHandler o) = .blocked t ∧ runHandler o h s = .next t) ∨
      (∃ c i, h (s.inHandler o) = .raised c i ∧ runHandler o h s = .next (s.faultedAt c i)) := by
  cases e : h (s.inHandler o) with
  | done t => exact .inl ⟨t, rfl, runHandler_done e⟩
  | blocked t => exact .inr (.inl ⟨t, rfl, runHandler_blocked e⟩)
  | raised c i => exact .inr (.inr ⟨c, i, rfl, runHandler_raised e⟩)

/-- What a handler reads from a register is the operand of R19. -/
theorem State.reg_inHandler (s : State) (o : Opcode) (r : Reg) :
    (s.inHandler o).reg r = s.operand o.operandCount r := by
  simp only [State.inHandler, State.reg_setIp, State.operand, State.ip_eq]

/-! ## Memory accesses -/

/-- The signed value of a sign-extended byte (R9): the byte, less 256 when it is 128 or more. -/
theorem sext8_eq (b : Byte) :
    sext8 b = BitVec.ofInt 32 (if b.toNat < 128 then (b.toNat : Int) else (b.toNat : Int) - 256) := by
  apply BitVec.eq_of_toInt_eq
  have := b.isLt
  rw [sext8, BitVec.toInt_signExtend, BitVec.toInt_ofInt, BitVec.toInt_eq_toNat_cond, show min 32 8 = 8 from rfl]
  simp only [Int.bmod_def]
  split <;> split <;> split <;> omega

/-- What a byte read can do (R44). -/
theorem memReadByte_cases (a : Word) (s : State) (k : Byte → HandlerResult) :
    (byteInBounds a ∧ memReadByte a s k = k (s.mem.byte a.toNat)) ∨
      (¬ byteInBounds a ∧ memReadByte a s k = .raised .memoryBounds a) := by
  simp only [memReadByte]; split
  · exact .inl ⟨by assumption, rfl⟩
  · exact .inr ⟨by assumption, rfl⟩

/-- What a word read can do (R45). -/
theorem memReadWord_cases (a : Word) (s : State) (k : Word → HandlerResult) :
    (wordInBounds a ∧ memReadWord a s k = k (s.mem.word a.toNat)) ∨
      (¬ wordInBounds a ∧ memReadWord a s k = .raised .memoryBounds a) := by
  simp only [memReadWord]; split
  · exact .inl ⟨by assumption, rfl⟩
  · exact .inr ⟨by assumption, rfl⟩

/-- What a word write can do (R47). -/
theorem memWriteWord_cases (a v : Word) (s : State) :
    (wordInBounds a ∧ memWriteWord a v s = .done { s with mem := s.mem.setWord a.toNat v }) ∨
      (¬ wordInBounds a ∧ memWriteWord a v s = .raised .memoryBounds a) := by
  simp only [memWriteWord]; split
  · exact .inl ⟨by assumption, rfl⟩
  · exact .inr ⟨by assumption, rfl⟩

/-- What a byte write can do (R46, R128): the value check, then the address check. -/
theorem checkedByteWrite_cases (a v : Word) (s : State) :
    ((Config.byteMax < v.toInt ∨ v.toInt < Config.byteMin) ∧ checkedByteWrite a v s = .raised .byteRange v) ∨
      (¬(Config.byteMax < v.toInt ∨ v.toInt < Config.byteMin) ∧ ¬ byteInBounds a ∧
        checkedByteWrite a v s = .raised .memoryBounds a) ∨
      (¬(Config.byteMax < v.toInt ∨ v.toInt < Config.byteMin) ∧ byteInBounds a ∧
        checkedByteWrite a v s = .done { s with mem := s.mem.setByte a.toNat (v.setWidth 8) }) := by
  simp only [checkedByteWrite, memWriteByte]
  split
  · exact .inl ⟨by assumption, rfl⟩
  · split
    · exact .inr (.inr ⟨by assumption, by assumption, rfl⟩)
    · exact .inr (.inl ⟨by assumption, by assumption, rfl⟩)

/-- What a push can do (R31). -/
theorem pushWord_cases (v : Word) (s : State) (k : State → HandlerResult) :
    (s.stack.sp < Config.stackUsable ∧ pushWord v s k = k { s with stack := s.stack.push v }) ∨
      (Config.stackUsable ≤ s.stack.sp ∧ pushWord v s k = .raised .stackOverflow v) := by
  simp only [pushWord]; split
  · exact .inl ⟨by assumption, rfl⟩
  · exact .inr ⟨by omega, rfl⟩

/-- What the string read can do (R49). -/
theorem Memory.string_cases (m : Memory) (a : Word) :
    (byteInBounds a ∧ ∃ bs, m.scan (Config.memSize - a.toNat) a.toNat = some bs ∧ m.string a = .ok bs) ∨
      (byteInBounds a ∧ m.scan (Config.memSize - a.toNat) a.toNat = none ∧ m.string a = .error 65536) ∨
      (¬ byteInBounds a ∧ m.string a = .error a) := by
  simp only [Memory.string]
  split
  · cases h : m.scan (Config.memSize - a.toNat) a.toNat with
    | none => exact .inr (.inl ⟨by assumption, rfl, rfl⟩)
    | some bs => exact .inl ⟨by assumption, bs, rfl, rfl⟩
  · exact .inr (.inr ⟨by assumption, rfl⟩)

/-! ## INT -/

/-- What the dispatch on the function id can do (R142). -/
theorem systemCall_cases (id : Word) (text : List Byte) (ip0 : Word) (s : State) :
    (∃ c : HostCall, id = c.id ∧ systemCall id text ip0 s = blockOn c text ip0 s) ∨
      (id = 5 ∧ systemCall id text ip0 s = .done (s.setReg .r1 65536)) ∨
      ((id.toInt < 0 ∨ 5 < id.toInt) ∧ systemCall id text ip0 s = .raised .syscallId id) := by
  simp only [systemCall]
  split
  · exact .inl ⟨.readLine, BitVec.eq_of_toNat_eq (by assumption), rfl⟩
  · exact .inl ⟨.writeLine, BitVec.eq_of_toNat_eq (by assumption), rfl⟩
  · exact .inl ⟨.readFileByte, BitVec.eq_of_toNat_eq (by assumption), rfl⟩
  · exact .inl ⟨.writeFileByte, BitVec.eq_of_toNat_eq (by assumption), rfl⟩
  · exact .inl ⟨.fileSize, BitVec.eq_of_toNat_eq (by assumption), rfl⟩
  · exact .inr (.inl ⟨BitVec.eq_of_toNat_eq (by assumption), rfl⟩)
  · refine .inr (.inr ⟨?_, rfl⟩)
    simp only [BitVec.toInt]
    simp_all
    omega

/-- What INT's handler can do (R142). -/
theorem intHandler_cases (id ip0 : Word) (s : State) :
    (∃ text, s.mem.string (s.reg .r1) = .ok text ∧ intHandler id ip0 s = systemCall id text ip0 s) ∨
      (∃ info, s.mem.string (s.reg .r1) = .error info ∧ intHandler id ip0 s = .raised .memoryBounds info) := by
  simp only [intHandler]
  cases h : s.mem.string (s.reg .r1) with
  | ok text => exact .inl ⟨text, rfl, rfl⟩
  | error info => exact .inr ⟨info, rfl, rfl⟩

/-! ## The response step -/

/-- Everything a response can do (R144). -/
theorem applyResponse_cases (req : Request) (resp : Response) (s : State) :
    (resp = .fail ∧ applyResponse req resp s = .next (s.takeFault .syscallIo req.call.id req.ip0)) ∨
      (∃ bs, req.call = .readLine ∧ resp = .line bs ∧ lineFits (s.reg .r2) bs ∧ applyResponse req resp s =
        .next (({ s with mem := s.mem.setLine (s.reg .r2).toNat bs }.setReg .r1 (BitVec.ofNat 32 bs.length)).resume)) ∨
      (∃ bs, req.call = .readLine ∧ resp = .line bs ∧ ¬ lineFits (s.reg .r2) bs ∧
        applyResponse req resp s = .next (s.takeFault .memoryBounds (s.reg .r2) req.ip0)) ∨
      (∃ w, (req.call = .readFileByte ∨ req.call = .fileSize) ∧ resp = .word w ∧
        applyResponse req resp s = .next ((s.setReg .r1 w).resume)) ∨
      ((req.call = .writeLine ∨ req.call = .writeFileByte) ∧ resp = .done ∧ applyResponse req resp s = .next s.resume) ∨
      (Response.fits req.call resp = false ∧ applyResponse req resp s = .fault .hostProtocol) := by
  obtain ⟨call, text, a1, a2, a3, ip0⟩ := req
  cases resp with
  | fail => exact .inl ⟨rfl, by cases call <;> rfl⟩
  | line bs =>
    by_cases hc : call = .readLine
    · subst hc
      by_cases h : lineFits (s.reg .r2) bs
      · exact .inr (.inl ⟨bs, rfl, rfl, h, if_pos h⟩)
      · exact .inr (.inr (.inl ⟨bs, rfl, rfl, h, if_neg h⟩))
    · refine .inr (.inr (.inr (.inr (.inr ?_))))
      cases call <;> first | exact absurd rfl hc | exact ⟨rfl, rfl⟩
  | word w =>
    cases call with
    | readFileByte => exact .inr (.inr (.inr (.inl ⟨w, .inl rfl, rfl, rfl⟩)))
    | fileSize => exact .inr (.inr (.inr (.inl ⟨w, .inr rfl, rfl, rfl⟩)))
    | readLine | writeLine | writeFileByte => exact .inr (.inr (.inr (.inr (.inr ⟨rfl, rfl⟩))))
  | done =>
    cases call with
    | writeLine => exact .inr (.inr (.inr (.inr (.inl ⟨.inl rfl, rfl, rfl⟩))))
    | writeFileByte => exact .inr (.inr (.inr (.inr (.inl ⟨.inr rfl, rfl, rfl⟩))))
    | readLine | readFileByte | fileSize => exact .inr (.inr (.inr (.inr (.inr ⟨rfl, rfl⟩))))

theorem applyResponse_fail (req : Request) (s : State) :
    applyResponse req .fail s = .next (s.takeFault .syscallIo req.call.id req.ip0) := by
  obtain ⟨call, text, a1, a2, a3, ip0⟩ := req; cases call <;> rfl

theorem applyResponse_line {req : Request} {bs : List Byte} {s : State} (h : req.call = .readLine) :
    applyResponse req (.line bs) s =
      if lineFits (s.reg .r2) bs then
        .next (({ s with mem := s.mem.setLine (s.reg .r2).toNat bs }.setReg .r1 (BitVec.ofNat 32 bs.length)).resume)
      else .next (s.takeFault .memoryBounds (s.reg .r2) req.ip0) := by
  obtain ⟨call, text, a1, a2, a3, ip0⟩ := req; cases h; rfl

theorem applyResponse_word {req : Request} {w : Word} {s : State}
    (h : req.call = .readFileByte ∨ req.call = .fileSize) :
    applyResponse req (.word w) s = .next ((s.setReg .r1 w).resume) := by
  obtain ⟨call, text, a1, a2, a3, ip0⟩ := req; rcases h with h | h <;> cases h <;> rfl

theorem applyResponse_done {req : Request} {s : State} (h : req.call = .writeLine ∨ req.call = .writeFileByte) :
    applyResponse req .done s = .next s.resume := by
  obtain ⟨call, text, a1, a2, a3, ip0⟩ := req; rcases h with h | h <;> cases h <;> rfl

/-- What a step in status BLOCKED can do (R144, R145): nothing without a response, else it takes the first one. -/
theorem step_blocked_cases {s : State} {req : Request} (h : s.status = .blocked req) :
    (s.hostAnswers = [] ∧ step s = .next s) ∨
      ∃ r rest, s.hostAnswers = r :: rest ∧ step s = applyResponse req r { s with hostAnswers := rest } := by
  simp only [step, stepWith, h, respond]
  cases s.hostAnswers with
  | nil => exact .inl ⟨rfl, rfl⟩
  | cons r rest => exact .inr ⟨r, rest, rfl, rfl⟩

/-! ## The boundary -/

theorem fetchWith_ended {map : Opcode → Word} {s : State} (h : (s.plen : Int) ≤ s.ip.toInt) :
    fetchWith map s = .ended := if_pos h

theorem fetchWith_negative {map : Opcode → Word} {s : State} (h : s.ip.toInt < 0) :
    fetchWith map s = .raised .fetchRange s.ip := by
  have h' : ¬ (s.plen : Int) ≤ s.ip.toInt := by omega
  exact (if_neg h').trans (if_pos h)

/-- Inside the program the fetch is the decode of the Words from `ip` on (R64). -/
theorem fetchWith_inside {map : Opcode → Word} {s : State} (h0 : 0 ≤ s.ip.toInt) (h1 : s.ip.toInt < (s.plen : Int)) :
    fetchWith map s = match decodeWith map (s.program.drop s.ip.toNat) with
      | .ok (i, _) => .instr i
      | .error e => decodeFault s.ip e := by
  have h0' : ¬ s.ip.toInt < 0 := by omega
  have h1' : ¬ (s.plen : Int) ≤ s.ip.toInt := by omega
  exact (if_neg h1').trans (if_neg h0')

/-- Everything the boundary check and the fetch can find, under any opcode map (R69, R164, R165). -/
theorem fetchWith_cases (map : Opcode → Word) (s : State) :
    ((s.plen : Int) ≤ s.ip.toInt ∧ fetchWith map s = .ended) ∨
      (s.ip.toInt < (s.plen : Int) ∧ s.ip.toInt < 0 ∧ fetchWith map s = .raised .fetchRange s.ip) ∨
      (0 ≤ s.ip.toInt ∧ s.ip.toInt < (s.plen : Int) ∧
        ((∃ i rest, decodeWith map (s.program.drop s.ip.toNat) = .ok (i, rest) ∧ fetchWith map s = .instr i) ∨
          (∃ e, decodeWith map (s.program.drop s.ip.toNat) = .error e ∧ fetchWith map s = decodeFault s.ip e))) := by
  by_cases h1 : (s.plen : Int) ≤ s.ip.toInt
  · exact .inl ⟨h1, fetchWith_ended h1⟩
  · by_cases h0 : s.ip.toInt < 0
    · exact .inr (.inl ⟨by omega, h0, fetchWith_negative h0⟩)
    · refine .inr (.inr ⟨by omega, by omega, ?_⟩)
      have e := fetchWith_inside (map := map) (s := s) (by omega) (by omega)
      cases h : decodeWith map (s.program.drop s.ip.toNat) with
      | error d => exact .inr ⟨d, rfl, by rw [e, h]⟩
      | ok p => exact .inl ⟨p.1, p.2, rfl, by rw [e, h]⟩

/-- Everything the boundary check and the fetch can find with the default opcode map. -/
theorem fetch_cases (s : State) :
    ((s.plen : Int) ≤ s.ip.toInt ∧ fetch s = .ended) ∨
      (s.ip.toInt < (s.plen : Int) ∧ s.ip.toInt < 0 ∧ fetch s = .raised .fetchRange s.ip) ∨
      (0 ≤ s.ip.toInt ∧ s.ip.toInt < (s.plen : Int) ∧
        ((∃ i rest, decode (s.program.drop s.ip.toNat) = .ok (i, rest) ∧ fetch s = .instr i) ∨
          (∃ e, decode (s.program.drop s.ip.toNat) = .error e ∧ fetch s = decodeFault s.ip e))) :=
  fetchWith_cases Opcode.word s

theorem stepWith_running {map : Opcode → Word} {s : State} (h : s.status = .running) :
    stepWith map s = runningStepWith map s := by simp only [stepWith, h]

/-- What a step in status RUNNING does with what the default opcode map finds. -/
theorem step_running {s : State} (h : s.status = .running) :
    step s = match fetch s with
      | .ended => .next s.haltRun
      | .raised cause info => .next (s.takeFault cause info s.ip)
      | .instr i => exec i s := stepWith_running h

/-! ## Runs -/

theorem run_zero (s : State) : Host.Core.run Sys2Proof.core 0 s = .next s := rfl

theorem run_next {s t : State} (k : Nat) (h : step s = .next t) :
    Host.Core.run Sys2Proof.core (k + 1) s = Host.Core.run Sys2Proof.core k t := by
  have e : Sys2Proof.core.step s = .next t := h
  simp only [Host.Core.run, e]

end Sys2Proof.Machine
end

