-- ==== Sys2Proof/Laws/Exec.lean ====
section
/-! SUPPORT. Every instruction is its handler run by `runHandler`; what a handler can do, said once for all of them. -/

namespace Sys2Proof.Machine

/-- The handler of an instruction whose opcode is at index `ip0`. -/
def handlerOf (i : Instr) (ip0 : Word) : State → HandlerResult :=
  match i with
  | .movDword rd imm => dwordForm rd imm aluMov
  | .movReg rd rs => regForm rd rs aluMov
  | .addDword rd imm => dwordForm rd imm aluAdd
  | .addReg rd rs => regForm rd rs aluAdd
  | .subDword rd imm => dwordForm rd imm aluSub
  | .subReg rd rs => regForm rd rs aluSub
  | .mulDword rd imm => dwordForm rd imm aluMul
  | .mulReg rd rs => regForm rd rs aluMul
  | .divDword rd imm => dwordForm rd imm aluDiv
  | .divReg rd rs => regForm rd rs aluDiv
  | .xorDword rd imm => dwordForm rd imm aluXor
  | .xorReg rd rs => regForm rd rs aluXor
  | .orDword rd imm => dwordForm rd imm aluOr
  | .orReg rd rs => regForm rd rs aluOr
  | .andDword rd imm => dwordForm rd imm aluAnd
  | .andReg rd rs => regForm rd rs aluAnd
  | .notDword rd imm => dwordForm rd imm aluNot
  | .notReg rd rs => regForm rd rs aluNot
  | .inc rd => unaryForm rd incRegister
  | .dec rd => unaryForm rd decRegister
  | .cmpDword rd imm => dwordForm rd imm aluCmpDword
  | .cmpReg rd rs => regForm rd rs aluCmpReg
  | .label _ => .done
  | .jmp off => jumpIf true off
  | .je off => fun t => jumpIf t.flags.equal off t
  | .jne off => fun t => jumpIf (!t.flags.equal) off t
  | .jg off => fun t => jumpIf t.flags.greater off t
  | .jb off => fun t => jumpIf t.flags.lower off t
  | .call tgt => callHandler tgt
  | .retn => retnHandler
  | .writeByteDword addr imm => checkedByteWrite addr imm
  | .writeByteReg ra rv => regForm ra rv fun _ a v => checkedByteWrite a v
  | .writeWordDword addr imm => memWriteWord addr imm
  | .writeWordReg ra rv => regForm ra rv fun _ a v => memWriteWord a v
  | .readByteDword rd addr => dwordForm rd addr fun d _ a => loadByte d a
  | .readByteReg rd ra => regForm rd ra fun d _ a => loadByte d a
  | .readWordDword rd addr => dwordForm rd addr fun d _ a => loadWord d a
  | .readWordReg rd ra => regForm rd ra fun d _ a => loadWord d a
  | .push rd => unaryForm rd pushRegister
  | .pop rd => unaryForm rd popRegister
  | .halt => haltHandler
  | .int id => intHandler id ip0

theorem exec_eq (i : Instr) (s : State) : exec i s = runHandler i.opcode (handlerOf i s.ip) s := by cases i <;> rfl

/-- Every way `exec` can end (R165): the handler completed, blocked, or raised a fault. -/
theorem exec_cases (i : Instr) (s : State) :
    (∃ t, handlerOf i s.ip (s.inHandler i.opcode) = .done t ∧ exec i s = .next (t.setIp (t.ip + 1))) ∨
      (∃ t, handlerOf i s.ip (s.inHandler i.opcode) = .blocked t ∧ exec i s = .next t) ∨
      (∃ c info, handlerOf i s.ip (s.inHandler i.opcode) = .raised c info ∧ exec i s = .next (s.faultedAt c info)) := by
  rw [exec_eq]; exact runHandler_cases _ _ _

/-- A handler that completes leaves the program, the status and the host's responses as they are. -/
theorem handlerOf_done_run {i : Instr} {ip0 : Word} {s t : State} (h : handlerOf i ip0 s = .done t) :
    t.program = s.program ∧ t.status = s.status ∧ t.hostAnswers = s.hostAnswers := by
  cases i <;> simp only [handlerOf, dwordForm, regForm, unaryForm, withReg, aluMov, aluAdd, aluSub, aluMul, aluDiv, aluXor, aluOr,
    aluAnd, aluNot, aluCmpDword, aluCmpReg, incRegister, decRegister, jumpIf, callHandler, retnHandler, checkedByteWrite,
    memWriteByte, memWriteWord, loadByte, loadWord, memReadByte, memReadWord, pushRegister, pushWord, popRegister,
    haltHandler, endProgram, intHandler, systemCall, blockOn] at h <;>
    (repeat' split at h) <;> first | (cases h; done) | (cases h; simp)

/-- Only INT blocks, with a function id that the host answers and after its string has been read (R142). -/
theorem handlerOf_blocked {i : Instr} {ip0 : Word} {s t : State} (h : handlerOf i ip0 s = .blocked t) :
    ∃ (c : HostCall) (text : List Byte), i = .int c.id ∧ s.mem.string (s.reg .r1) = .ok text ∧
      blockOn c text ip0 s = .blocked t := by
  cases i <;> simp only [handlerOf, dwordForm, regForm, unaryForm, withReg, aluMov, aluAdd, aluSub, aluMul, aluDiv, aluXor, aluOr,
    aluAnd, aluNot, aluCmpDword, aluCmpReg, incRegister, decRegister, jumpIf, callHandler, retnHandler, checkedByteWrite,
    memWriteByte, memWriteWord, loadByte, loadWord, memReadByte, memReadWord, pushRegister, pushWord, popRegister,
    haltHandler, endProgram] at h
  case int id =>
    rcases intHandler_cases id ip0 s with ⟨text, e, e1⟩ | ⟨_, _, e1⟩ <;> rw [e1] at h
    · rcases systemCall_cases id text ip0 s with ⟨c, hc, e2⟩ | ⟨_, e2⟩ | ⟨_, e2⟩ <;> rw [e2] at h
      · exact ⟨c, text, by rw [hc], e, h⟩
      · cases h
      · cases h
    · cases h
  all_goals (repeat' split at h) <;> cases h

end Sys2Proof.Machine
end

