-- ==== Sys2Proof/Laws/PerInstr.lean ====
section
/-! SUPPORT. Statements made of every instruction, one lemma per constructor. -/

namespace Sys2Proof.Laws

/-- The encoding has the shape of R62 and R65: the opcode's Word, then exactly its operand count of Words, and the
operand Words rebuild the instruction. -/
def EncodedShape.Statement (i : Instr) : Prop :=
  encode i = i.opcode.word :: i.operands ∧ i.operands.length = i.opcode.operandCount ∧
    i.opcode.build (i.operands.getD 0 0) (i.operands.getD 1 0) = i

theorem EncodedShape.movDword (rd imm : Word) : EncodedShape.Statement (.movDword rd imm) := ⟨rfl, rfl, rfl⟩
theorem EncodedShape.movReg (rd rs : Word) : EncodedShape.Statement (.movReg rd rs) := ⟨rfl, rfl, rfl⟩
theorem EncodedShape.addDword (rd imm : Word) : EncodedShape.Statement (.addDword rd imm) := ⟨rfl, rfl, rfl⟩
theorem EncodedShape.addReg (rd rs : Word) : EncodedShape.Statement (.addReg rd rs) := ⟨rfl, rfl, rfl⟩
theorem EncodedShape.subDword (rd imm : Word) : EncodedShape.Statement (.subDword rd imm) := ⟨rfl, rfl, rfl⟩
theorem EncodedShape.subReg (rd rs : Word) : EncodedShape.Statement (.subReg rd rs) := ⟨rfl, rfl, rfl⟩
theorem EncodedShape.mulDword (rd imm : Word) : EncodedShape.Statement (.mulDword rd imm) := ⟨rfl, rfl, rfl⟩
theorem EncodedShape.mulReg (rd rs : Word) : EncodedShape.Statement (.mulReg rd rs) := ⟨rfl, rfl, rfl⟩
theorem EncodedShape.divDword (rd imm : Word) : EncodedShape.Statement (.divDword rd imm) := ⟨rfl, rfl, rfl⟩
theorem EncodedShape.divReg (rd rs : Word) : EncodedShape.Statement (.divReg rd rs) := ⟨rfl, rfl, rfl⟩
theorem EncodedShape.xorDword (rd imm : Word) : EncodedShape.Statement (.xorDword rd imm) := ⟨rfl, rfl, rfl⟩
theorem EncodedShape.xorReg (rd rs : Word) : EncodedShape.Statement (.xorReg rd rs) := ⟨rfl, rfl, rfl⟩
theorem EncodedShape.orDword (rd imm : Word) : EncodedShape.Statement (.orDword rd imm) := ⟨rfl, rfl, rfl⟩
theorem EncodedShape.orReg (rd rs : Word) : EncodedShape.Statement (.orReg rd rs) := ⟨rfl, rfl, rfl⟩
theorem EncodedShape.andDword (rd imm : Word) : EncodedShape.Statement (.andDword rd imm) := ⟨rfl, rfl, rfl⟩
theorem EncodedShape.andReg (rd rs : Word) : EncodedShape.Statement (.andReg rd rs) := ⟨rfl, rfl, rfl⟩
theorem EncodedShape.notDword (rd imm : Word) : EncodedShape.Statement (.notDword rd imm) := ⟨rfl, rfl, rfl⟩
theorem EncodedShape.notReg (rd rs : Word) : EncodedShape.Statement (.notReg rd rs) := ⟨rfl, rfl, rfl⟩
theorem EncodedShape.inc (rd : Word) : EncodedShape.Statement (.inc rd) := ⟨rfl, rfl, rfl⟩
theorem EncodedShape.dec (rd : Word) : EncodedShape.Statement (.dec rd) := ⟨rfl, rfl, rfl⟩
theorem EncodedShape.cmpDword (rd imm : Word) : EncodedShape.Statement (.cmpDword rd imm) := ⟨rfl, rfl, rfl⟩
theorem EncodedShape.cmpReg (rd rs : Word) : EncodedShape.Statement (.cmpReg rd rs) := ⟨rfl, rfl, rfl⟩
theorem EncodedShape.label (id : Word) : EncodedShape.Statement (.label id) := ⟨rfl, rfl, rfl⟩
theorem EncodedShape.jmp (off : Word) : EncodedShape.Statement (.jmp off) := ⟨rfl, rfl, rfl⟩
theorem EncodedShape.je (off : Word) : EncodedShape.Statement (.je off) := ⟨rfl, rfl, rfl⟩
theorem EncodedShape.jne (off : Word) : EncodedShape.Statement (.jne off) := ⟨rfl, rfl, rfl⟩
theorem EncodedShape.jg (off : Word) : EncodedShape.Statement (.jg off) := ⟨rfl, rfl, rfl⟩
theorem EncodedShape.jb (off : Word) : EncodedShape.Statement (.jb off) := ⟨rfl, rfl, rfl⟩
theorem EncodedShape.call (tgt : Word) : EncodedShape.Statement (.call tgt) := ⟨rfl, rfl, rfl⟩
theorem EncodedShape.retn : EncodedShape.Statement .retn := ⟨rfl, rfl, rfl⟩
theorem EncodedShape.writeByteDword (addr imm : Word) : EncodedShape.Statement (.writeByteDword addr imm) := ⟨rfl, rfl, rfl⟩
theorem EncodedShape.writeByteReg (ra rv : Word) : EncodedShape.Statement (.writeByteReg ra rv) := ⟨rfl, rfl, rfl⟩
theorem EncodedShape.writeWordDword (addr imm : Word) : EncodedShape.Statement (.writeWordDword addr imm) := ⟨rfl, rfl, rfl⟩
theorem EncodedShape.writeWordReg (ra rv : Word) : EncodedShape.Statement (.writeWordReg ra rv) := ⟨rfl, rfl, rfl⟩
theorem EncodedShape.readByteDword (rd addr : Word) : EncodedShape.Statement (.readByteDword rd addr) := ⟨rfl, rfl, rfl⟩
theorem EncodedShape.readByteReg (rd ra : Word) : EncodedShape.Statement (.readByteReg rd ra) := ⟨rfl, rfl, rfl⟩
theorem EncodedShape.readWordDword (rd addr : Word) : EncodedShape.Statement (.readWordDword rd addr) := ⟨rfl, rfl, rfl⟩
theorem EncodedShape.readWordReg (rd ra : Word) : EncodedShape.Statement (.readWordReg rd ra) := ⟨rfl, rfl, rfl⟩
theorem EncodedShape.push (rd : Word) : EncodedShape.Statement (.push rd) := ⟨rfl, rfl, rfl⟩
theorem EncodedShape.pop (rd : Word) : EncodedShape.Statement (.pop rd) := ⟨rfl, rfl, rfl⟩
theorem EncodedShape.halt : EncodedShape.Statement .halt := ⟨rfl, rfl, rfl⟩
theorem EncodedShape.int (id : Word) : EncodedShape.Statement (.int id) := ⟨rfl, rfl, rfl⟩

end Sys2Proof.Laws
end

