-- ==== Sys2Proof/Tests/Slice0.lean ====
section
/-! SUPPORT. Small tests, one step each. Expected values are those of `95_test_vectors.md` (its row numbers V<n> are in
the comments) or are worked out by hand from the rule named. The witnesses at the end show that the hypotheses of every
statement can be met. -/

namespace Sys2Proof.Tests

open Sys2Proof.Machine Sys2Proof.Rules

/-! ## Helpers -/

/-- Reset with a program, at index 0. -/
def start (p : List Word) : State := { State.reset with program := p }

/-- The instruction `ws` at index `n`, after and before HALT words: PLEN is 40. -/
def startAt (n : Nat) (ws : List Word) : State :=
  (start (List.replicate n 41 ++ ws ++ List.replicate (40 - n - ws.length) 41)).setIp (BitVec.ofNat 32 n)

/-- The state after one step; the same state where the step does not answer a next state. -/
def after (s : State) : State :=
  match step s with
  | .next t => t
  | .fault _ => s
  | .refused _ => s

/-- The flags, in the order of R23. -/
def fl (s : State) : List Bool := [s.flags.overflow, s.flags.underflow, s.flags.greater, s.flags.lower, s.flags.equal]

/-- The fault record of a state. -/
def faultOf (s : State) : Option (FaultCause × Int × Int) :=
  match s.status with
  | .faulted c i f => some (c, i.toInt, f.toInt)
  | .running => none
  | .blocked _ => none
  | .halted => none

/-- A register as a signed value. -/
def val (s : State) (r : Reg) : Int := (s.reg r).toInt

/-- A stack whose live entries are `es`, bottom first. -/
def stackOf (es : List Word) : CallStack := es.foldl CallStack.push { sp := 0, slots := [] }

/-- A memory byte as a number. -/
def mb (s : State) (a : Nat) : Nat := (s.mem.byte a).toNat

/-- A memory with the given bytes from an address on. -/
def memOf (a : Nat) (bs : List Byte) : Memory := Memory.setBytes [] a bs

/-- V143 after the host has answered `Line("abc")`. -/
def lineAnswered : State :=
  (after ((startAt 0 [42, 0]).setReg .r2 100)).hostAnswer (.line [97, 98, 99])

/-! ## MOV, ADD, SUB, MUL, DIV -/

/-- V2. -/
theorem test_movd_writes_ip_plus_one :
    val (after (startAt 0 [1, 8, 10])) .rip = 11 := by decide

/-- V3, V4. -/
theorem test_movd_bad_register :
    faultOf (after (startAt 0 [1, 9, 5])) = some (.registerIndex, 9, 0) ∧
    faultOf (after (startAt 0 [1, -1, 5])) = some (.registerIndex, -1, 0) := by decide

/-- V5. -/
theorem test_movr_copies :
    val (after ((startAt 0 [2, 2, 1]).setReg .r2 (-7))) .r3 = -7 := by decide

/-- V6. -/
theorem test_movr_reads_rip :
    val (after (startAt 0 [2, 0, 8])) .r1 = 2 := by decide

/-- V9. -/
theorem test_addd_overflows :
    val (after ((startAt 0 [3, 0, 1]).setReg .r1 2147483647)) .r1 = -2147483648 ∧
    fl (after ((startAt 0 [3, 0, 1]).setReg .r1 2147483647)) = [true, false, false, false, false] := by decide

/-- V21. -/
theorem test_addd_rip :
    val (after (startAt 2 [3, 8, 5])) .rip = 10 := by decide

/-- V14. -/
theorem test_addr_underflows :
    fl (after (((startAt 0 [4, 0, 1]).setReg .r1 (-2147483648)).setReg .r2 (-2147483648))) = [false, true, false, false, false] := by decide

/-- V13. -/
theorem test_addr_adds_to_itself :
    val (after ((startAt 0 [4, 0, 0]).setReg .r1 1073741824)) .r1 = -2147483648 := by decide

/-- V16. -/
theorem test_subd_order :
    val (after ((startAt 0 [5, 0, 10]).setReg .r1 8)) .r1 = -2 := by decide

/-- V17. -/
theorem test_subd_overflows :
    fl (after (startAt 0 [5, 0, -2147483648])) = [true, false, false, false, false] := by decide

/-- V20. -/
theorem test_subr_wraps :
    val (after (((startAt 0 [6, 0, 1]).setReg .r1 2147483647).setReg .r2 (-1))) .r1 = -2147483648 := by decide

/-- V19 with flags set before: R86 clears all five. -/
theorem test_subr_clears_flags :
    fl (after ({ (startAt 0 [6, 3, 3]) with flags := ⟨true, true, false, false, true⟩ })) = [false, false, false, false, false] := by decide

/-- V23. -/
theorem test_muld_wraps :
    val (after ((startAt 0 [7, 0, 65536]).setReg .r1 65536)) .r1 = 0 ∧
    fl (after ((startAt 0 [7, 0, 65536]).setReg .r1 65536)) = [true, false, false, false, false] := by decide

/-- V22. -/
theorem test_muld_negates :
    val (after ((startAt 0 [7, 0, 7]).setReg .r1 (-6))) .r1 = -42 := by decide

/-- V27. -/
theorem test_mulr_squares :
    val (after ((startAt 0 [8, 0, 0]).setReg .r1 46341)) .r1 = -2147479015 := by decide

/-- V29. -/
theorem test_mulr_negative_overflow :
    fl (after (((startAt 0 [8, 0, 1]).setReg .r1 (-65536)).setReg .r2 32769)) = [true, false, false, false, false] := by decide

/-- V33. -/
theorem test_divd_truncates :
    val (after ((startAt 0 [9, 0, 2]).setReg .r1 (-7))) .r1 = -3 ∧ val (after ((startAt 0 [9, 0, 2]).setReg .r1 (-7))) .r6 = -1 := by decide

/-- V39. -/
theorem test_divd_remainder_wins :
    val (after ((startAt 0 [9, 5, 4]).setReg .r6 11)) .r6 = 3 := by decide

/-- V41. -/
theorem test_divr_reads_before_it_writes :
    val (after (((startAt 0 [10, 0, 5]).setReg .r1 20).setReg .r6 6)) .r1 = 3 ∧ val (after (((startAt 0 [10, 0, 5]).setReg .r1 20).setReg .r6 6)) .r6 = 2 := by decide

/-- Program P4's fault, at index 0. -/
theorem test_divr_by_zero :
    faultOf (after ((startAt 0 [10, 0, 1]).setReg .r1 7)) = some (.divideByZero, 7, 0) := by decide

/-! ## XOR, OR, AND, NOT -/

/-- V46. -/
theorem test_xord :
    val (after ((startAt 0 [11, 0, 255]).setReg .r1 3855)) .r1 = 4080 := by decide

/-- V60. -/
theorem test_xord_keeps_flags :
    fl (after ({ (startAt 0 [11, 0, 1]) with flags := ⟨true, false, false, false, true⟩ })) = [true, false, false, false, true] := by decide

/-- V49. -/
theorem test_xorr :
    val (after (((startAt 0 [12, 0, 1]).setReg .r1 6).setReg .r2 3)) .r1 = 5 := by decide

/-- V50. -/
theorem test_ord :
    val (after ((startAt 0 [13, 0, 1]).setReg .r1 16)) .r1 = 17 := by decide

/-- V51. -/
theorem test_orr :
    val (after (((startAt 0 [14, 0, 1]).setReg .r1 12).setReg .r2 3)) .r1 = 15 := by decide

/-- V53. -/
theorem test_andd :
    val (after ((startAt 0 [15, 0, 255]).setReg .r1 (-1))) .r1 = 255 := by decide

/-- V54. -/
theorem test_andr :
    val (after (((startAt 0 [16, 0, 1]).setReg .r1 12).setReg .r2 6)) .r1 = 4 := by decide

/-- V55 with another old value. -/
theorem test_notd_ignores_destination :
    val (after ((startAt 0 [17, 0, 5]).setReg .r1 77)) .r1 = -6 := by decide

/-- V58, V59. -/
theorem test_notr :
    val (after ((startAt 0 [18, 0, 1]).setReg .r2 (-1))) .r1 = 0 ∧ val (after ((startAt 0 [18, 3, 3]).setReg .r4 15)) .r4 = -16 := by decide

/-! ## INC, DEC, CMP -/

/-- V63, with OVERFLOW set before: R110 writes it. -/
theorem test_inc_keeps_other_flags :
    fl (after ({ ((startAt 0 [19, 0]).setReg .r1 1) with flags := ⟨true, true, true, false, false⟩ })) = [false, true, true, false, false] := by decide

/-- V67. -/
theorem test_inc_rip :
    val (after (startAt 2 [19, 8])) .rip = 5 := by decide

/-- V65. -/
theorem test_dec_underflows :
    val (after ((startAt 0 [20, 0]).setReg .r1 (-2147483648))) .r1 = 2147483647 ∧
    fl (after ((startAt 0 [20, 0]).setReg .r1 (-2147483648))) = [false, true, false, false, false] := by decide

/-- V68. -/
theorem test_dec_rip :
    val (after (startAt 2 [20, 8])) .rip = 3 := by decide

/-- W2. -/
theorem test_cmpd_orientation :
    fl (after ((startAt 0 [21, 0, 5]).setReg .r1 6)) = [false, false, true, false, false] ∧
    fl (after ((startAt 0 [21, 0, 5]).setReg .r1 4)) = [false, false, false, true, false] := by decide

/-- V71, with GREATER set before. -/
theorem test_cmpd_keeps_overflow :
    fl (after ({ ((startAt 0 [21, 0, 5]).setReg .r1 5) with flags := ⟨true, true, true, false, false⟩ })) = [true, true, false, false, true] := by decide

/-- V72, V73. -/
theorem test_cmpr_orientation :
    fl (after (((startAt 0 [22, 0, 1]).setReg .r1 3).setReg .r2 9)) = [false, false, true, false, false] ∧
    fl (after (((startAt 0 [22, 0, 1]).setReg .r1 9).setReg .r2 3)) = [false, false, false, true, false] := by decide

/-- V74. -/
theorem test_cmpr_equal :
    fl (after ((startAt 0 [22, 1, 1]).setReg .r2 4)) = [false, false, false, false, true] := by decide

/-! ## Control transfer -/

/-- V76. -/
theorem test_label :
    val (after (startAt 4 [23, 12345])) .rip = 6 := by decide

/-- V77. -/
theorem test_jmp_back :
    val (after (startAt 10 [24, -6])) .rip = 6 := by decide

/-- V81. -/
theorem test_jmp_negative_then_fetch_range :
    val (after (startAt 0 [24, -3])) .rip = -1 ∧ faultOf (after (after (startAt 0 [24, -3]))) = some (.fetchRange, -1, -1) := by decide

/-- V83, V84. -/
theorem test_je :
    val (after ({ (startAt 20 [25, 6]) with flags := ⟨false, false, false, false, true⟩ })) .rip = 28 ∧ val (after (startAt 20 [25, 6])) .rip = 22 := by decide

/-- V85, V86. -/
theorem test_jne :
    val (after (startAt 20 [26, -8])) .rip = 14 ∧ val (after ({ (startAt 20 [26, -8]) with flags := ⟨false, false, false, false, true⟩ })) .rip = 22 := by decide

/-- V87, V88. -/
theorem test_jg :
    val (after ({ (startAt 3 [27, 4]) with flags := ⟨false, false, true, false, false⟩ })) .rip = 9 ∧ val (after ({ (startAt 3 [27, 4]) with flags := ⟨false, false, false, true, false⟩ })) .rip = 5 := by decide

/-- V89, V90. -/
theorem test_jb :
    val (after ({ (startAt 3 [28, 4]) with flags := ⟨false, false, false, true, false⟩ })) .rip = 9 ∧ val (after ({ (startAt 3 [28, 4]) with flags := ⟨false, false, true, false, false⟩ })) .rip = 5 := by decide

/-- V91. -/
theorem test_call :
    (after (startAt 2 [29, 8])).stack = stackOf [2] ∧ val (after (startAt 2 [29, 8])) .rip = 9 := by decide

/-- V93. -/
theorem test_call_overflow :
    faultOf (after ({ (startAt 2 [29, 8]) with stack := ⟨255, []⟩ })) = some (.stackOverflow, 2, 2) := by decide

/-- V94. -/
theorem test_retn :
    val (after ({ (startAt 7 [30]) with stack := stackOf [2] })) .rip = 4 ∧ (after ({ (startAt 7 [30]) with stack := stackOf [2] })).stack.sp = 0 := by decide

/-- V95. -/
theorem test_retn_ends_the_run :
    val (after (startAt 7 [30])) .rip = 41 ∧ (after (after (startAt 7 [30]))).status = .halted := by decide

/-! ## Memory -/

/-- V99, V98. -/
theorem test_wbd_range :
    mb (after (startAt 0 [31, 0, -1])) 0 = 255 ∧ faultOf (after (startAt 0 [31, 0, 128])) = some (.byteRange, 128, 0) := by decide

/-- V105, V103. -/
theorem test_wbd_value_before_address :
    faultOf (after (startAt 0 [31, 70000, 200])) = some (.byteRange, 200, 0) ∧
    faultOf (after (startAt 0 [31, 65536, 1])) = some (.memoryBounds, 65536, 0) := by decide

/-- V106. -/
theorem test_wbr :
    mb (after (((startAt 0 [32, 0, 1]).setReg .r1 100).setReg .r2 65)) 100 = 65 := by decide

/-- V110. -/
theorem test_wbr_bad_register :
    faultOf (after (startAt 0 [32, 9, 1])) = some (.registerIndex, 9, 0) := by decide

/-- V114. -/
theorem test_wwd_big_endian :
    (List.range 6).map (mb (after (startAt 0 [33, 1, 16909060]))) = [0, 1, 2, 3, 4, 0] := by decide

/-- V112, V113. -/
theorem test_wwd_bounds :
    mb (after (startAt 0 [33, 65532, -1])) 65535 = 255 ∧ faultOf (after (startAt 0 [33, 65533, 1])) = some (.memoryBounds, 65533, 0) := by decide

/-- V115. -/
theorem test_wwr :
    (List.range 4).map (fun j => mb (after (((startAt 0 [34, 0, 1]).setReg .r1 8).setReg .r2 (-2))) (8 + j)) = [255, 255, 255, 254] := by decide

/-- V116. -/
theorem test_wwr_rip :
    mb (after ((startAt 0 [34, 0, 8]).setReg .r1 8)) 11 = 2 := by decide

/-- V119. -/
theorem test_rbd_sign_extends :
    val (after ({ (startAt 0 [35, 0, 0]) with mem := memOf 0 [128] })) .r1 = -128 := by decide

/-- V120. -/
theorem test_rbd_bounds :
    faultOf (after (startAt 0 [35, 0, 65536])) = some (.memoryBounds, 65536, 0) := by decide

/-- V121. -/
theorem test_rbr :
    val (after ({ ((startAt 0 [36, 0, 2]).setReg .r3 3) with mem := memOf 3 [254] })) .r1 = -2 := by decide

/-- V124. -/
theorem test_rwd :
    val (after ({ (startAt 0 [37, 0, 1]) with mem := memOf 0 [17, 34, 51, 68, 85] })) .r1 = 573785173 := by decide

/-- V126. -/
theorem test_rwd_bounds :
    faultOf (after (startAt 0 [37, 0, 65533])) = some (.memoryBounds, 65533, 0) := by decide

/-- V128. -/
theorem test_rwr :
    val (after ({ ((startAt 0 [38, 1, 1]).setReg .r2 8) with mem := memOf 8 [0, 0, 1, 0] })) .r2 = 256 := by decide

/-! ## Stack -/

/-- V132. -/
theorem test_push_rip :
    (after (startAt 0 [39, 8])).stack = stackOf [1] := by decide

/-- V131. -/
theorem test_push_overflow :
    faultOf (after ({ ((startAt 0 [39, 0]).setReg .r1 7) with stack := ⟨255, []⟩ })) = some (.stackOverflow, 7, 0) := by decide

/-- V136. -/
theorem test_pop_rip :
    val (after ({ (startAt 0 [40, 8]) with stack := stackOf [5] })) .rip = 6 ∧ (after ({ (startAt 0 [40, 8]) with stack := stackOf [5] })).stack.sp = 0 := by decide

/-- V134, V135. -/
theorem test_pop_underflow :
    faultOf (after (startAt 0 [40, 2])) = some (.stackUnderflow, 0, 0) ∧ faultOf (after (startAt 0 [40, 9])) = some (.registerIndex, 9, 0) := by decide

/-! ## System -/

/-- V137. -/
theorem test_halt :
    val (after (start [41])) .rip = 2 ∧ (after (after (start [41]))).status = .halted := by decide

/-- V139, V142, V140, V141. -/
theorem test_int_completes_or_faults :
    val (after (startAt 0 [42, 5])) .r1 = 65536 ∧ val (after (startAt 0 [42, 5])) .rip = 2 ∧
    faultOf (after ((startAt 0 [42, -1]).setReg .r1 70000)) = some (.memoryBounds, 70000, 0) ∧
    faultOf (after ({ ((startAt 0 [42, 5]).setReg .r1 65535) with mem := memOf 65535 [7] })) = some (.memoryBounds, 65536, 0) ∧
    faultOf (after (startAt 0 [42, 6])) = some (.syscallId, 6, 0) := by decide

/-- V143, first step. -/
theorem test_int_blocks :
    (after ((startAt 0 [42, 0]).setReg .r2 100)).status =
    .blocked { call := .readLine, text := [], arg1 := 0, arg2 := 100, arg3 := 0, ip0 := 0 } := by decide

/-- V143, second step, and V149. -/
theorem test_response_step :
    (List.range 4).map (fun j => mb (after lineAnswered) (100 + j)) = [97, 98, 99, 0] ∧
    val (after lineAnswered) .r1 = 3 ∧ val (after lineAnswered) .rip = 2 ∧ (after lineAnswered).status = .running ∧
    faultOf (after ((after (startAt 0 [42, 4])).hostAnswer .fail)) = some (.syscallIo, 4, 0) := by decide

/-! ## Decode, boundary, reset -/

/-- V150, V151, V153. -/
theorem test_boundary :
    (after (start [])).status = .halted ∧ faultOf (after (start [0])) = some (.illegalOpcode, 0, 0) ∧
    faultOf (after (start [-5])) = some (.illegalOpcode, -5, 0) := by decide

/-- V154, V155, V156. -/
theorem test_truncated :
    faultOf (after (start [1, 0])) = some (.fetchRange, 2, 0) ∧ faultOf (after (start [24])) = some (.fetchRange, 1, 0) ∧
    faultOf (after (start [43, 9])) = some (.illegalOpcode, 43, 0) := by decide

/-- The memory of the reset state has the canonical form. -/
theorem test_reset_memory_wf :
    Memory.wf State.reset.mem := Memory.wf_nil

/-- Words written out from the encoding table of R69 and the formats of R65. -/
theorem test_decode_mov_add_sub_mul_div :
    decode ([1, 0, 5] ++ [41]) = .ok (.movDword 0 5, [41]) ∧
    decode ([2, 2, 1] ++ [41]) = .ok (.movReg 2 1, [41]) ∧
    decode ([3, 0, 3] ++ [41]) = .ok (.addDword 0 3, [41]) ∧
    decode ([4, 0, 1] ++ [41]) = .ok (.addReg 0 1, [41]) ∧
    decode ([5, 0, 10] ++ [41]) = .ok (.subDword 0 10, [41]) ∧
    decode ([6, 3, 2] ++ [41]) = .ok (.subReg 3 2, [41]) ∧
    decode ([7, 0, 7] ++ [41]) = .ok (.mulDword 0 7, [41]) ∧
    decode ([8, 0, 1] ++ [41]) = .ok (.mulReg 0 1, [41]) ∧
    decode ([9, 5, 4] ++ [41]) = .ok (.divDword 5 4, [41]) ∧
    decode ([10, 0, 5] ++ [41]) = .ok (.divReg 0 5, [41]) :=
  ⟨rfl, rfl, rfl, rfl, rfl, rfl, rfl, rfl, rfl, rfl⟩

/-- Words written out from the encoding table of R69 and the formats of R65. -/
theorem test_decode_bitwise :
    decode ([11, 0, 255] ++ [41]) = .ok (.xorDword 0 255, [41]) ∧
    decode ([12, 2, 1] ++ [41]) = .ok (.xorReg 2 1, [41]) ∧
    decode ([13, 0, 1] ++ [41]) = .ok (.orDword 0 1, [41]) ∧
    decode ([14, 0, 1] ++ [41]) = .ok (.orReg 0 1, [41]) ∧
    decode ([15, 0, 255] ++ [41]) = .ok (.andDword 0 255, [41]) ∧
    decode ([16, 0, 1] ++ [41]) = .ok (.andReg 0 1, [41]) ∧
    decode ([17, 0, 5] ++ [41]) = .ok (.notDword 0 5, [41]) ∧
    decode ([18, 3, 2] ++ [41]) = .ok (.notReg 3 2, [41]) :=
  ⟨rfl, rfl, rfl, rfl, rfl, rfl, rfl, rfl⟩

/-- Words written out from the encoding table of R69 and the formats of R65. -/
theorem test_decode_incdec_cmp :
    decode ([19, 3] ++ [41]) = .ok (.inc 3, [41]) ∧
    decode ([20, 8] ++ [41]) = .ok (.dec 8, [41]) ∧
    decode ([21, 0, 5] ++ [41]) = .ok (.cmpDword 0 5, [41]) ∧
    decode ([22, 0, 1] ++ [41]) = .ok (.cmpReg 0 1, [41]) :=
  ⟨rfl, rfl, rfl, rfl⟩

/-- Words written out from the encoding table of R69 and the formats of R65. -/
theorem test_decode_control :
    decode ([23, 12345] ++ [41]) = .ok (.label 12345, [41]) ∧
    decode ([24, -6] ++ [41]) = .ok (.jmp (-6), [41]) ∧
    decode ([25, 6] ++ [41]) = .ok (.je 6, [41]) ∧
    decode ([26, -8] ++ [41]) = .ok (.jne (-8), [41]) ∧
    decode ([27, 4] ++ [41]) = .ok (.jg 4, [41]) ∧
    decode ([28, 4] ++ [41]) = .ok (.jb 4, [41]) ∧
    decode ([29, 8] ++ [41]) = .ok (.call 8, [41]) ∧
    decode ([30] ++ [41]) = .ok (.retn, [41]) :=
  ⟨rfl, rfl, rfl, rfl, rfl, rfl, rfl, rfl⟩

/-- Words written out from the encoding table of R69 and the formats of R65. -/
theorem test_decode_memory :
    decode ([31, 0, 72] ++ [41]) = .ok (.writeByteDword 0 72, [41]) ∧
    decode ([32, 0, 1] ++ [41]) = .ok (.writeByteReg 0 1, [41]) ∧
    decode ([33, 65532, -1] ++ [41]) = .ok (.writeWordDword 65532 (-1), [41]) ∧
    decode ([34, 0, 8] ++ [41]) = .ok (.writeWordReg 0 8, [41]) ∧
    decode ([35, 1, 0] ++ [41]) = .ok (.readByteDword 1 0, [41]) ∧
    decode ([36, 0, 2] ++ [41]) = .ok (.readByteReg 0 2, [41]) ∧
    decode ([37, 0, 65533] ++ [41]) = .ok (.readWordDword 0 65533, [41]) ∧
    decode ([38, 0, 1] ++ [41]) = .ok (.readWordReg 0 1, [41]) :=
  ⟨rfl, rfl, rfl, rfl, rfl, rfl, rfl, rfl⟩

/-- Words written out from the encoding table of R69 and the formats of R65. -/
theorem test_decode_stack_system :
    decode ([39, 8] ++ [41]) = .ok (.push 8, [41]) ∧
    decode ([40, 2] ++ [41]) = .ok (.pop 2, [41]) ∧
    decode ([41] ++ [41]) = .ok (.halt, [41]) ∧
    decode ([42, 5] ++ [41]) = .ok (.int 5, [41]) :=
  ⟨rfl, rfl, rfl, rfl⟩

/-- The table's numbering: the first Word is bits 31..0, the second bits 63..32, the third bits 95..64. -/
theorem test_decodeTableWord :
    decodeTableWord 96 (1 + 3 * 2 ^ 32 + 5 * 2 ^ 64) = some (.movDword 3 5) ∧ decodeTableWord 32 1 = some (.movDword 0 0) ∧
      decodeTableWord 32 41 = some .halt ∧ decodeTableWord 64 (42 + 5 * 2 ^ 32) = some (.int 5) ∧
      decodeTableWord 32 43 = none :=
  ⟨rfl, rfl, rfl, rfl, rfl⟩

/-- The word placed is the instruction that the next step runs. -/
theorem test_withFetchWord :
    val (after (State.reset.withFetchWord 96 (1 + 3 * 2 ^ 32 + 5 * 2 ^ 64))) .r4 = 5 ∧
      (after (State.reset.withFetchWord 64 (42 + 5 * 2 ^ 32))).regs.r1 = 65536 := by decide

/-! ## Another opcode map -/

/-- An opcode map other than the default: every opcode's Word is 100 more. -/
def shifted (o : Opcode) : Word := o.word + 100

/-- Under that map [101, 0, 5] is MOV_DWORD r1 5, and the Word 1 is illegal (R69, R71). -/
theorem test_shifted_map :
    (match stepWith shifted (start [101, 0, 5]) with
      | .next t => val t .r1
      | .fault _ => 0
      | .refused _ => 0) = 5 ∧
      (match stepWith shifted (start [1, 0, 5]) with
      | .next t => faultOf t
      | .fault _ => none
      | .refused _ => none) = some (.illegalOpcode, 1, 0) := by decide

/-! ## Well-formedness: each check refuses an ill-formed term -/

/-- Register indices (R15): 8 is a register, 9 and -1 are not; the second operand is checked too. -/
theorem test_wellFormed_register :
    Instr.wellFormed (.movDword 8 0) = true ∧ Instr.wellFormed (.movDword 9 0) = false ∧
      Instr.wellFormed (.addReg 0 9) = false ∧ Instr.wellFormed (.push (-1)) = false := by decide

/-- Byte addresses (R43). -/
theorem test_wellFormed_byteAddr :
    Instr.wellFormed (.readByteDword 0 65535) = true ∧ Instr.wellFormed (.readByteDword 0 65536) = false ∧
      Instr.wellFormed (.writeByteDword (-1) 0) = false := by decide

/-- Word addresses (R43). -/
theorem test_wellFormed_wordAddr :
    Instr.wellFormed (.writeWordDword 65532 0) = true ∧ Instr.wellFormed (.writeWordDword 65533 0) = false ∧
      Instr.wellFormed (.readWordDword 0 (-1)) = false := by decide

/-- Byte values (R128). -/
theorem test_wellFormed_byteValue :
    Instr.wellFormed (.writeByteDword 0 127) = true ∧ Instr.wellFormed (.writeByteDword 0 128) = false ∧
      Instr.wellFormed (.writeByteDword 0 (-129)) = false := by decide

/-- The immediate divisor (R97) and the system-call id (R142). -/
theorem test_wellFormed_divisor_syscall :
    Instr.wellFormed (.divDword 0 1) = true ∧ Instr.wellFormed (.divDword 0 0) = false ∧
      Instr.wellFormed (.int 5) = true ∧ Instr.wellFormed (.int 6) = false ∧ Instr.wellFormed (.int (-1)) = false := by
  decide

/-! ## Witnesses: the hypotheses of each statement can be met

One theorem per statement that has hypotheses, named after it; a statement with several clauses has a witness for each,
at the ends of its range. -/

/-- A blocked state of the given call, with the given responses pending. -/
def blockedAt (c : HostCall) (answers : List Response) : State :=
  { startAt 0 [42, c.id] with
    status := .blocked { call := c, text := [], arg1 := 0, arg2 := 0, arg3 := 0, ip0 := 0 }, hostAnswers := answers }

theorem badIndex : BadIndex 9 ∧ BadIndex (-1) ∧ ¬BadIndex 8 ∧ ¬BadIndex 0 := by unfold BadIndex; decide

/-- The reset memory holds the empty string at 0, and at 65535. -/
theorem emptyString : IsString (start []).mem 0 [] ∧ IsString (start []).mem 65535 [] :=
  ⟨⟨by decide, by decide, by decide, rfl, fun _ h => absurd h (Nat.not_lt_zero _)⟩,
    ⟨by decide, by decide, by decide, rfl, fun _ h => absurd h (Nat.not_lt_zero _)⟩⟩

theorem startInv : Inv (startAt 0 [1, 0, 5]) :=
  ⟨Memory.wf_nil, ⟨by decide, Cells.wf_nil _ _⟩, by decide, by decide, trivial⟩

theorem witness_LoadResetsEveryField : ([41] : List Word).length ≤ 2147483646 := by decide

theorem witness_LoadRefusesOverlongPrograms : 2147483646 < (List.replicate 2147483647 (41 : Word)).length := by
  rw [List.length_replicate]; decide

theorem witness_ResetMeetsInvariant : State.load [41] = .next (start [41]) := rfl

theorem witness_StepKeepsInvariant :
    Inv (startAt 0 [1, 0, 5]) ∧ step (startAt 0 [1, 0, 5]) = .next (after (startAt 0 [1, 0, 5])) := ⟨startInv, rfl⟩

theorem witness_EveryRunKeepsInvariant :
    State.load [41] = .next (start [41]) ∧
      Host.Core.run Sys2Proof.core 2 { start [41] with hostAnswers := [.fail] } =
        .next (after (after { start [41] with hostAnswers := [.fail] })) := ⟨rfl, rfl⟩

theorem witness_DecodeOfEncodeUnderAnyOpcodeMap : ∀ a b : Opcode, Opcode.word a = Opcode.word b → a = b :=
  fun _ _ h => Opcode.word_injective h

theorem witness_EncodeOfDecodeGivesTheWords : decode [1, 0, 5, 41] = .ok (.movDword 0 5, [41]) := rfl

/-- Both clauses, at 0 and 43, and at 1 and 42. -/
theorem witness_IllegalOpcodeFaults :
    (start [0, 43, 1, 42]).status = .running ∧ 0 ≤ ((start [0, 43, 1, 42]).reg .rip).toInt ∧
      (start [0, 43, 1, 42]).program[((start [0, 43, 1, 42]).reg .rip).toNat]? = some 0 ∧
      ((0 : Word).toInt < 1 ∧ 42 < (43 : Word).toInt) ∧ (1 ≤ (1 : Word).toInt ∧ (42 : Word).toInt ≤ 42) ∧
      (start [42, 5]).program[((start [42, 5]).reg .rip).toNat]? = some 42 := by decide

/-- No operand of one, none of two, one of two. -/
theorem witness_TruncatedInstructionFaults :
    (start [24]).status = .running ∧ 0 ≤ ((start [24]).reg .rip).toInt ∧
      ((start [24]).reg .rip).toInt < (start [24]).program.length ∧
      (start [24]).program.drop ((start [24]).reg .rip).toNat = Opcode.word .jmp :: [] ∧
      ([] : List Word).length < Opcode.operandCount .jmp ∧
      (start [1]).program.drop ((start [1]).reg .rip).toNat = Opcode.word .movDword :: [] ∧
      (start [1, 0]).program.drop ((start [1, 0]).reg .rip).toNat = Opcode.word .movDword :: [0] ∧
      ([0] : List Word).length < Opcode.operandCount .movDword := by decide

theorem witness_StepRunsDecodedInstruction :
    (start [41]).status = .running ∧ 0 ≤ ((start [41]).reg .rip).toInt ∧
      ((start [41]).reg .rip).toInt < (start [41]).program.length ∧
      decode ((start [41]).program.drop ((start [41]).reg .rip).toNat) = .ok (.halt, []) :=
  ⟨rfl, by decide, by decide, rfl⟩

/-- `ip = PLEN`, and `ip = -1`. -/
theorem witness_BoundaryCheckHaltsOrFaults :
    (start []).status = .running ∧ ((start []).program.length : Int) ≤ ((start []).reg .rip).toInt ∧
      (((start []).setIp (-1)).reg .rip).toInt < 0 := by decide

theorem witness_HaltedOnlyByTheBoundary :
    step (start []) = .next (after (start [])) ∧ (after (start [])).status = .halted ∧ (start []).status ≠ .halted :=
  ⟨rfl, by decide, by decide⟩

theorem witness_EndedRunStaysAsItIs :
    (after (start [])).ended = true ∧ (after (start [0])).ended = true := by decide

/-- A response that does not fit, and one that does. -/
theorem witness_StepStopsOnlyOnAMisfitResponse :
    (blockedAt .readLine [.done]).hostAnswers = [.done] ∧ Response.fits .readLine .done = false ∧
      ∀ (req : Request) (resp : Response) (h : List Response), (blockedAt .readLine [.line []]).status = .blocked req →
        (blockedAt .readLine [.line []]).hostAnswers = resp :: h → Response.fits req.call resp = true :=
  ⟨rfl, rfl, fun _ _ _ h1 h2 => by cases h1; cases h2; rfl⟩

theorem witness_ProgramIsNeverWritten : step (start [1, 0, 5]) = .next (after (start [1, 0, 5])) := rfl

/-- From RUNNING, and from BLOCKED. -/
theorem witness_FaultsArePrecise :
    (step (start [9, 0, 0]) = .next (after (start [9, 0, 0])) ∧
        (after (start [9, 0, 0])).status = .faulted .divideByZero 0 0 ∧ (start [9, 0, 0]).status = .running) ∧
      step (blockedAt .fileSize [.fail]) = .next (after (blockedAt .fileSize [.fail])) ∧
        (after (blockedAt .fileSize [.fail])).status = .faulted .syscallIo 4 0 :=
  ⟨⟨rfl, by decide, rfl⟩, rfl, by decide⟩

theorem witness_FaultCausesFollowTheTable :
    (start [10, 0, 1]).status = .running ∧ exec (.divReg 0 1) (start [10, 0, 1]) = .next (after (start [10, 0, 1])) ∧
      (after (start [10, 0, 1])).status = .faulted .divideByZero 0 0 := ⟨rfl, rfl, by decide⟩

theorem witness_WellFormedFaultsDependOnStateOnly :
    (Instr.divReg 0 1).wellFormed = true ∧ (start [10, 0, 1]).status = .running ∧
      exec (.divReg 0 1) (start [10, 0, 1]) = .next (after (start [10, 0, 1])) ∧
      (after (start [10, 0, 1])).status = .faulted .divideByZero 0 0 := ⟨by decide, rfl, rfl, by decide⟩

theorem witness_MoveRules : BadIndex 9 ∧ BadIndex (-1) := ⟨badIndex.1, badIndex.2.1⟩
theorem witness_AddRules : BadIndex 9 ∧ BadIndex (-1) := ⟨badIndex.1, badIndex.2.1⟩
theorem witness_SubRules : BadIndex 9 ∧ BadIndex (-1) := ⟨badIndex.1, badIndex.2.1⟩
theorem witness_MulRules : BadIndex 9 ∧ BadIndex (-1) := ⟨badIndex.1, badIndex.2.1⟩

/-- Divisors 0, 1 and -1, and the quotient and remainder of V33. -/
theorem witness_DivRules :
    BadIndex 9 ∧ BadIndex (-1) ∧ ((start []).operand 2 .r1 = 0 ∧ (1 : Word) ≠ 0 ∧ (-1 : Word) ≠ 0) ∧
      (-7 : Word).toInt = -3 * (2 : Word).toInt + -1 ∧ (-1 : Int).natAbs < (2 : Word).toInt.natAbs :=
  ⟨badIndex.1, badIndex.2.1, by decide, by decide, by decide⟩

theorem witness_XorOrAndRules : BadIndex 9 ∧ BadIndex (-1) := ⟨badIndex.1, badIndex.2.1⟩
theorem witness_NotRules : BadIndex 9 ∧ BadIndex (-1) := ⟨badIndex.1, badIndex.2.1⟩
theorem witness_IncDecRules : BadIndex 9 ∧ BadIndex (-1) := ⟨badIndex.1, badIndex.2.1⟩
theorem witness_CompareRules : BadIndex 9 ∧ BadIndex (-1) := ⟨badIndex.1, badIndex.2.1⟩

/-- A full stack, and one with room for one entry. -/
theorem witness_CallRule :
    ({ start [] with stack := ⟨255, []⟩ } : State).stack.sp = 255 ∧
      ({ start [] with stack := ⟨254, []⟩ } : State).stack.sp < 255 := by decide

/-- An empty stack, and one with one entry. -/
theorem witness_ReturnRule :
    (start []).stack.sp = 0 ∧ 0 < ({ start [] with stack := stackOf [2] } : State).stack.sp := by decide

theorem witness_CallThenReturnResumesAfterTheCall :
    ({ startAt 2 [29, 8] with stack := ⟨254, []⟩ } : State).stack.sp < 255 ∧
      exec (.call 8) { startAt 2 [29, 8] with stack := ⟨254, []⟩ } =
        .next (after { startAt 2 [29, 8] with stack := ⟨254, []⟩ }) := ⟨by decide, rfl⟩

/-- Each clause at the ends of its range: values 128, -129, 127 and -128, addresses -1, 65536, 0 and 65535. -/
theorem witness_ByteWriteRules :
    BadIndex 9 ∧ BadIndex (-1) ∧ (127 < (128 : Word).toInt ∧ (-129 : Word).toInt < -128) ∧
      (-128 ≤ (-128 : Word).toInt ∧ (127 : Word).toInt ≤ 127) ∧
      ((-1 : Word).toInt < 0 ∧ 65535 < (65536 : Word).toInt) ∧ 0 ≤ (0 : Word).toInt ∧ (65535 : Word).toInt ≤ 65535 :=
  ⟨badIndex.1, badIndex.2.1, by decide, by decide, by decide, by decide, by decide⟩

/-- Addresses -1, 65533, 0 and 65532. -/
theorem witness_WordWriteRules :
    BadIndex 9 ∧ BadIndex (-1) ∧ ((-1 : Word).toInt < 0 ∧ 65532 < (65533 : Word).toInt) ∧ 0 ≤ (0 : Word).toInt ∧
      (65532 : Word).toInt ≤ 65532 := ⟨badIndex.1, badIndex.2.1, by decide, by decide, by decide⟩

/-- Addresses -1, 65536, 0 and 65535. -/
theorem witness_ByteReadRules :
    BadIndex 9 ∧ BadIndex (-1) ∧ ((-1 : Word).toInt < 0 ∧ 65535 < (65536 : Word).toInt) ∧ 0 ≤ (0 : Word).toInt ∧
      (65535 : Word).toInt ≤ 65535 := ⟨badIndex.1, badIndex.2.1, by decide, by decide, by decide⟩

/-- Addresses -1, 65533, 0 and 65532. -/
theorem witness_WordReadRules :
    BadIndex 9 ∧ BadIndex (-1) ∧ ((-1 : Word).toInt < 0 ∧ 65532 < (65533 : Word).toInt) ∧ 0 ≤ (0 : Word).toInt ∧
      (65532 : Word).toInt ≤ 65532 := ⟨badIndex.1, badIndex.2.1, by decide, by decide, by decide⟩

/-- Addresses 0, 65532 and 65535, values -128 and 127; the state after the write agrees with itself. -/
theorem witness_WrittenMemoryReadsBack :
    (0 ≤ (65532 : Word).toInt ∧ (65532 : Word).toInt ≤ 65532) ∧ (0 ≤ (65535 : Word).toInt ∧ (65535 : Word).toInt ≤ 65535) ∧
      (-128 ≤ (-128 : Word).toInt ∧ (127 : Word).toInt ≤ 127) ∧
      exec (.writeWordDword 65532 5) (start [33, 65532, 5]) = .next (after (start [33, 65532, 5])) :=
  ⟨by decide, by decide, by decide, rfl⟩

/-- Depths 255, 254, 0 and 1. -/
theorem witness_PushAndPopRules :
    BadIndex 9 ∧ BadIndex (-1) ∧ ({ start [] with stack := ⟨255, []⟩ } : State).stack.sp = 255 ∧
      ({ start [] with stack := ⟨254, []⟩ } : State).stack.sp < 255 ∧ (start []).stack.sp = 0 ∧
      0 < ({ start [] with stack := stackOf [2] } : State).stack.sp :=
  ⟨badIndex.1, badIndex.2.1, by decide, by decide, rfl, by decide⟩

theorem witness_PushThenPopMovesTheValue :
    ({ start [39, 0] with stack := ⟨254, []⟩ } : State).stack.sp < 255 ∧
      exec (.push 0) { start [39, 0] with stack := ⟨254, []⟩ } =
        .next (after { start [39, 0] with stack := ⟨254, []⟩ }) := ⟨by decide, rfl⟩

theorem witness_HaltRule :
    (start [41]).stack.sp = 0 ∧ (start [41]).status = .running ∧ (start [41]).program.length ≤ 2147483646 := by decide

/-- Each clause: r1 at -1 and 65536; r1 at 65535 with no 0 byte there; the ids -1 and 6 after a string. -/
theorem witness_IntChecksTheStringThenTheId :
    ((((start []).setReg .r1 (-1)).reg .r1).toInt < 0 ∧ 65535 < (((start []).setReg .r1 65536).reg .r1).toInt) ∧
      (0 ≤ (65535 : Word).toInt ∧ (65535 : Word).toInt ≤ 65535 ∧
        ∀ n : Nat, (65535 : Word).toNat ≤ n → n ≤ 65535 →
          ({ start [] with mem := memOf 65535 [7] } : State).mem.byte n ≠ 0) ∧
      IsString (start []).mem 0 [] ∧ (-1 : Word).toInt < 0 ∧ 5 < (6 : Word).toInt := by
  refine ⟨by decide, ⟨by decide, by decide, fun n h1 h2 => ?_⟩, emptyString.1, by decide, by decide⟩
  obtain rfl : n = 65535 := Nat.le_antisymm h2 h1
  decide

theorem witness_IntRunsOrBlocks :
    IsString (start []).mem ((start []).reg .r1) [] ∧
      IsString ((start []).setReg .r1 65535).mem (((start []).setReg .r1 65535).reg .r1) [] := emptyString

theorem witness_BlockedOnlyByInt :
    (start [42, 0]).status = .running ∧ step (start [42, 0]) = .next (after (start [42, 0])) ∧
      (after (start [42, 0])).status =
        .blocked { call := .readLine, text := [], arg1 := 0, arg2 := 0, arg3 := 0, ip0 := 0 } := ⟨rfl, rfl, by decide⟩

/-- The three clauses: a line that just fits at 65533, a Word for each of two calls, and Done for each of two. -/
theorem witness_ResponseStepResumes :
    ((blockedAt .readLine [.line [97, 98]]).setReg .r2 65533).hostAnswers = .line [97, 98] :: [] ∧
      (0 ≤ (65533 : Word).toInt ∧ (65533 : Word).toInt + ([97, 98] : List Byte).length ≤ 65535) ∧
      (blockedAt .readFileByte [.word 200]).hostAnswers = .word 200 :: [] ∧
      (blockedAt .fileSize [.word 7]).hostAnswers = .word 7 :: [] ∧
      (blockedAt .writeLine [.done]).hostAnswers = .done :: [] ∧
      (blockedAt .writeFileByte [.done]).hostAnswers = .done :: [] := ⟨rfl, by decide, rfl, rfl, rfl, rfl⟩

/-- The two clauses: Fail, and a line that just does not fit, at 65534 and at -1. -/
theorem witness_ResponseStepFaults :
    (blockedAt .writeLine [.fail]).hostAnswers = .fail :: [] ∧
      (blockedAt .readLine [.line [97, 98]]).hostAnswers = .line [97, 98] :: [] ∧
      65535 < (65534 : Word).toInt + ([97, 98] : List Byte).length ∧ (-1 : Word).toInt < 0 :=
  ⟨rfl, rfl, by decide, by decide⟩

theorem witness_FailedSystemCallLeavesTheStateBeforeIt :
    (start [42, 4]).status = .running ∧ exec (.int 4) (start [42, 4]) = .next (after (start [42, 4])) ∧
      (∃ req : Request, (after (start [42, 4])).status = .blocked req) ∧
      step { after (start [42, 4]) with hostAnswers := [.fail] } =
        .next (after { after (start [42, 4]) with hostAnswers := [.fail] }) ∧
      (after { after (start [42, 4]) with hostAnswers := [.fail] }).status = .faulted .syscallIo 4 0 :=
  ⟨rfl, rfl, ⟨_, rfl⟩, rfl, by decide⟩

theorem witness_UnansweredRequestBlocksForever :
    (∃ req : Request, (blockedAt .readLine []).status = .blocked req) ∧ (blockedAt .readLine []).hostAnswers = [] :=
  ⟨⟨_, rfl⟩, rfl⟩

/-- RUNNING, HALTED and FAULTED. -/
theorem witness_HostSeesTheFinalState :
    (start [41]).ended = false ∧ (after (start [])).ended = true ∧ (after (start [])).status = .halted ∧
      (after (start [0])).status = .faulted .illegalOpcode 0 0 := by decide

theorem witness_FlagsWrittenOnlyByTheTable :
    exec (.inc 0) (start [19, 0]) = .next (after (start [19, 0])) ∧ (flagRow (.inc 0)).2.1 = false ∧
      (flagRow (.inc 0)).2.2 = false ∧ (flagRow (.dec 0)).1 = false := ⟨rfl, rfl, rfl, rfl⟩

/-- JE with two flag sets that agree on EQUAL and differ elsewhere. -/
theorem witness_FlagsReadOnlyByConditionalJumps :
    agreeOnRead (.je 6) ⟨true, false, true, false, true⟩ ⟨false, false, false, false, true⟩ ∧
      exec (.je 6) { startAt 20 [25, 6] with flags := ⟨true, false, true, false, true⟩ } =
        .next (after { startAt 20 [25, 6] with flags := ⟨true, false, true, false, true⟩ }) := ⟨rfl, rfl⟩

/-- An empty stack whose slot 1 keeps a stale value, and one whose slots are all 0. -/
theorem witness_StaleStackSlotsAreUnobservable :
    SameButStale (startAt 0 [39, 0]) { startAt 0 [39, 0] with stack := ⟨0, [(1, 36)]⟩ } ∧
      (startAt 0 [39, 0]).stack ≠ ⟨0, [(1, 36)]⟩ ∧ step (startAt 0 [39, 0]) = .next (after (startAt 0 [39, 0])) :=
  ⟨⟨rfl, rfl, rfl, rfl, rfl, rfl, rfl, fun _ h1 h2 => absurd (Nat.le_trans h1 h2) (by decide)⟩, by decide, rfl⟩

theorem witness_RegistersWrittenOnlyWhereNamed :
    exec (.divDword 0 2) (start [9, 0, 2]) = .next (after (start [9, 0, 2])) ∧ Reg.r2 ≠ .rip ∧
      ¬mayWrite (.divDword 0 2) .r2 := ⟨rfl, by decide, by rintro (h | h) <;> revert h <;> decide⟩

/-- The `exec` clauses; then a step at a WRITE, a step that takes a line, and a step at a PUSH. -/
theorem witness_StorageSpacesReachedOnlyByTheirInstructions :
    (exec (.push 0) (start [39, 0]) = .next (after (start [39, 0])) ∧ writesMemory (.push 0) = false ∧
        usesStack (.writeByteDword 0 1) = false) ∧
      (step (start [31, 0, 72]) = .next (after (start [31, 0, 72])) ∧
        ¬SameMemory (start [31, 0, 72]) (after (start [31, 0, 72]))) ∧
      (step (blockedAt .readLine [.line [97]]) = .next (after (blockedAt .readLine [.line [97]])) ∧
        ¬SameMemory (blockedAt .readLine [.line [97]]) (after (blockedAt .readLine [.line [97]]))) ∧
      step (start [39, 0]) = .next (after (start [39, 0])) ∧ ¬SameStack (start [39, 0]) (after (start [39, 0])) :=
  ⟨⟨rfl, rfl, rfl⟩, ⟨rfl, fun h => absurd (h 0) (by decide)⟩, ⟨rfl, fun h => absurd (h 0) (by decide)⟩, rfl,
    fun h => absurd h.1 (by decide)⟩

theorem witness_SequentialFlowSkipsTheOperands :
    (start [1, 0, 5]).status = .running ∧ transfersControl (.movDword 0 5) = false ∧ ¬mayWrite (.movDword 0 5) .rip ∧
      exec (.movDword 0 5) (start [1, 0, 5]) = .next (after (start [1, 0, 5])) ∧
      (after (start [1, 0, 5])).status = .running :=
  ⟨rfl, rfl, by intro h; revert h; unfold mayWrite; decide, rfl, by decide⟩

/-- The Words 0 and 43, at the ends of the two ranges. -/
theorem witness_IllegalOpcodeRaisedOnlyByTheFetch :
    (start [0]).ended = false ∧ step (start [0]) = .next (after (start [0])) ∧
      (after (start [0])).status = .faulted .illegalOpcode 0 0 ∧
      (after (start [43])).status = .faulted .illegalOpcode 43 0 := ⟨rfl, rfl, by decide, by decide⟩

/-- The map of `shifted`: an instruction of it, and the Word 1, which it does not assign. -/
theorem witness_StepUnderAnyOpcodeMap :
    (∀ a b : Opcode, shifted a = shifted b → a = b) ∧ (start [101, 0, 5]).status = .running ∧
      0 ≤ ((start [101, 0, 5]).reg .rip).toInt ∧
      (start [101, 0, 5]).program.drop ((start [101, 0, 5]).reg .rip).toNat = encodeWith shifted (.movDword 0 5) ++ [] ∧
      (start [1]).program[((start [1]).reg .rip).toNat]? = some 1 ∧ ∀ o : Opcode, shifted o ≠ 1 :=
  ⟨fun a b h => Opcode.word_injective (by simpa [shifted] using h), rfl, by decide, by decide, by decide,
    fun o => by cases o <;> decide⟩

theorem witness_ExecSeesOnlyTheProgramLength :
    ([0, 0, 0] : List Word).length = (start [1, 0, 5]).program.length ∧
      exec (.movDword 0 5) (start [1, 0, 5]) = .next (after (start [1, 0, 5])) := ⟨rfl, rfl⟩

end Sys2Proof.Tests
end

