-- ==== Sys2Proof/Proofs/IllegalOpcode.lean ====
section
/-! The illegal opcode (R71): which Words the lookup, the decoder and the fetch reject, that no handler raises
ILLEGAL_OPCODE, and the obligation about the step. -/

namespace Sys2Proof

/-! ## The Words of the default map -/

/-- A Word that is not negative has the same signed and unsigned value (R8). -/
theorem Word.toInt_eq_toNat {w : Word} (h : 0 ≤ w.toInt) : w.toInt = w.toNat := by
  have := BitVec.toInt_eq_toNat_cond w
  omega

theorem Opcode.word_toInt_bounds (o : Opcode) : 1 ≤ o.word.toInt ∧ o.word.toInt ≤ 42 := by cases o <;> decide

/-- The default map assigns every Word of 1 to 42 (R69). -/
theorem Opcode.exists_word_eq {w : Word} (h1 : 1 ≤ w.toInt) (h2 : w.toInt ≤ 42) : ∃ o : Opcode, o.word = w := by
  have table : ∀ n : Nat, n < 43 → 1 ≤ n → ∃ o ∈ Opcode.all, o.word = BitVec.ofNat 32 n := by decide
  have hw : w.toInt = w.toNat := Word.toInt_eq_toNat (by omega)
  obtain ⟨o, -, ho⟩ := table w.toNat (by omega) (by omega)
  exact ⟨o, by simpa using ho⟩

/-- The Words that the default map does not assign are those outside 1 to 42 (R71). -/
theorem Opcode.word_ne_iff {w : Word} : (∀ o : Opcode, o.word ≠ w) ↔ w.toInt < 1 ∨ 42 < w.toInt := by
  constructor
  · intro h
    by_contra hc
    obtain ⟨o, ho⟩ := Opcode.exists_word_eq (w := w) (by omega) (by omega)
    exact h o ho
  · rintro h o rfl
    have := o.word_toInt_bounds
    omega

/-- The decoder rejects a Word as an opcode exactly when the sequence begins with it and the map does not assign it. -/
theorem decodeWith_eq_illegalOpcode {map : Opcode → Word} {ws : List Word} {w : Word} :
    decodeWith map ws = .error (.illegalOpcode w) ↔ ws.head? = some w ∧ ∀ o : Opcode, map o ≠ w := by
  cases ws with
  | nil => simp [decodeWith]
  | cons op rest =>
    rw [← lookupOpcode_eq_none, List.head?_cons, Option.some.injEq]
    cases hl : lookupOpcode map op with
    | none =>
      simp only [decodeWith, hl, Except.error.injEq, DecodeError.illegalOpcode.injEq]
      exact ⟨fun h => ⟨h, h ▸ hl⟩, fun h => h.1⟩
    | some o =>
      have assigned : ¬(op = w ∧ lookupOpcode map w = none) := by rintro ⟨rfl, h⟩; simp [h] at hl
      simp only [decodeWith, hl, assigned, iff_false]
      split <;> simp

end Sys2Proof

namespace Sys2Proof.Machine

open Sys2Proof.Rules

/-! ## The fetch -/

theorem decodeFault_eq_illegalOpcode {ip0 w : Word} {e : DecodeError} :
    decodeFault ip0 e = .raised .illegalOpcode w ↔ e = .illegalOpcode w := by
  cases e <;> simp [decodeFault]

/-- The fetch raises ILLEGAL_OPCODE exactly on a Word of the program at `ip` that the map does not assign (R71). -/
theorem fetchWith_eq_illegalOpcode {map : Opcode → Word} {s : State} {w : Word} :
    fetchWith map s = .raised .illegalOpcode w ↔
      0 ≤ s.ip.toInt ∧ s.program[s.ip.toNat]? = some w ∧ ∀ o : Opcode, map o ≠ w := by
  rw [← List.head?_drop, ← decodeWith_eq_illegalOpcode]
  constructor
  · intro h
    rcases fetchWith_cases map s with ⟨-, e⟩ | ⟨-, -, e⟩ | ⟨h0, -, ⟨_, _, -, e⟩ | ⟨d, hd, e⟩⟩ <;> rw [e] at h
    · cases h
    · cases h
    · cases h
    · exact ⟨h0, by rw [hd, decodeFault_eq_illegalOpcode.mp h]⟩
  · rintro ⟨h0, hd⟩
    obtain ⟨hw, -⟩ := decodeWith_eq_illegalOpcode.mp hd
    rw [List.head?_drop] at hw
    obtain ⟨hlt, -⟩ := List.getElem?_eq_some_iff.mp hw
    have h1 : s.ip.toInt < (s.plen : Int) := by rw [Word.toInt_eq_toNat h0]; exact_mod_cast hlt
    rw [fetchWith_inside h0 h1, hd]
    rfl

/-! ## What the handlers raise -/

theorem dwordForm_raised {rd imm info : Word} {op : AluOp} {s : State} {c : FaultCause}
    (h : dwordForm rd imm op s = .raised c info) :
    c = .registerIndex ∨ ∃ d : Reg, op d (s.reg d) imm s = .raised c info := by
  rcases dwordForm_cases rd imm op s with ⟨d, -, e⟩ | ⟨-, e⟩ <;> rw [e] at h
  · exact .inr ⟨d, h⟩
  · cases h; exact .inl rfl

theorem regForm_raised {rd rs info : Word} {op : AluOp} {s : State} {c : FaultCause}
    (h : regForm rd rs op s = .raised c info) :
    c = .registerIndex ∨ ∃ d r : Reg, op d (s.reg d) (s.reg r) s = .raised c info := by
  rcases regForm_cases rd rs op s with ⟨d, r, -, -, e⟩ | ⟨-, e⟩ | ⟨_, -, -, e⟩ <;> rw [e] at h
  · exact .inr ⟨d, r, h⟩
  · cases h; exact .inl rfl
  · cases h; exact .inl rfl

theorem unaryForm_raised {rd info : Word} {op : Reg → State → HandlerResult} {s : State} {c : FaultCause}
    (h : unaryForm rd op s = .raised c info) : c = .registerIndex ∨ ∃ d : Reg, op d s = .raised c info := by
  rcases unaryForm_cases rd op s with ⟨d, -, e⟩ | ⟨-, e⟩ <;> rw [e] at h
  · exact .inr ⟨d, h⟩
  · cases h; exact .inl rfl

theorem aluDiv_raised {d : Reg} {a b info : Word} {s : State} {c : FaultCause}
    (h : aluDiv d a b s = .raised c info) : c = .divideByZero := by
  simp only [aluDiv] at h
  split at h <;> cases h
  rfl

theorem loadByte_raised {d : Reg} {a info : Word} {s : State} {c : FaultCause}
    (h : loadByte d a s = .raised c info) : c = .memoryBounds := by
  rcases memReadByte_cases a s (fun b => .done (s.setReg d (sext8 b))) with ⟨-, e⟩ | ⟨-, e⟩ <;>
    cases e.symm.trans h
  rfl

theorem loadWord_raised {d : Reg} {a info : Word} {s : State} {c : FaultCause}
    (h : loadWord d a s = .raised c info) : c = .memoryBounds := by
  rcases memReadWord_cases a s (fun w => .done (s.setReg d w)) with ⟨-, e⟩ | ⟨-, e⟩ <;> cases e.symm.trans h
  rfl

theorem memWriteWord_raised {a v info : Word} {s : State} {c : FaultCause}
    (h : memWriteWord a v s = .raised c info) : c = .memoryBounds := by
  rcases memWriteWord_cases a v s with ⟨-, e⟩ | ⟨-, e⟩ <;> cases e.symm.trans h
  rfl

theorem checkedByteWrite_raised {a v info : Word} {s : State} {c : FaultCause}
    (h : checkedByteWrite a v s = .raised c info) : c = .byteRange ∨ c = .memoryBounds := by
  rcases checkedByteWrite_cases a v s with ⟨-, e⟩ | ⟨-, -, e⟩ | ⟨-, -, e⟩ <;> cases e.symm.trans h
  · exact .inl rfl
  · exact .inr rfl

/-- A push whose continuation completes raises STACK_OVERFLOW alone. -/
theorem pushWord_done_raised {v info : Word} {s : State} {f : State → State} {c : FaultCause}
    (h : pushWord v s (fun t => .done (f t)) = .raised c info) : c = .stackOverflow := by
  rcases pushWord_cases v s (fun t => .done (f t)) with ⟨-, e⟩ | ⟨-, e⟩ <;> cases e.symm.trans h
  rfl

theorem callHandler_raised {tgt info : Word} {s : State} {c : FaultCause}
    (h : callHandler tgt s = .raised c info) : c = .stackOverflow :=
  pushWord_done_raised (f := fun t => t.setIp tgt) h

theorem pushRegister_raised {d : Reg} {info : Word} {s : State} {c : FaultCause}
    (h : pushRegister d s = .raised c info) : c = .stackOverflow :=
  pushWord_done_raised (f := fun t => t) h

theorem popRegister_raised {d : Reg} {info : Word} {s : State} {c : FaultCause}
    (h : popRegister d s = .raised c info) : c = .stackUnderflow := by
  simp only [popRegister] at h
  split at h <;> cases h
  rfl

theorem retnHandler_ne_raised {info : Word} {s : State} {c : FaultCause} : retnHandler s ≠ .raised c info := by
  simp only [retnHandler]
  split <;> nofun

theorem intHandler_raised {id ip0 info : Word} {s : State} {c : FaultCause}
    (h : intHandler id ip0 s = .raised c info) : c = .memoryBounds ∨ c = .syscallId := by
  rcases intHandler_cases id ip0 s with ⟨text, -, e⟩ | ⟨_, -, e⟩ <;> rw [e] at h
  · rcases systemCall_cases id text ip0 s with ⟨_, -, e'⟩ | ⟨-, e'⟩ | ⟨-, e'⟩ <;> cases e'.symm.trans h
    exact .inr rfl
  · cases h; exact .inl rfl

/-- A handler raises only the causes that the table of R147 lists for its instruction. -/
theorem mayRaise_of_handlerOf_raised {i : Instr} {ip0 info : Word} {s : State} {c : FaultCause}
    (h : handlerOf i ip0 s = .raised c info) : mayRaise i c = true := by
  cases i with
  | movDword | addDword | subDword | mulDword | xorDword | orDword | andDword | notDword | cmpDword =>
    rcases dwordForm_raised h with rfl | ⟨_, e⟩
    · rfl
    · cases e
  | movReg | addReg | subReg | mulReg | xorReg | orReg | andReg | notReg | cmpReg =>
    rcases regForm_raised h with rfl | ⟨_, _, e⟩
    · rfl
    · cases e
  | divDword =>
    rcases dwordForm_raised h with rfl | ⟨_, e⟩
    · rfl
    · cases aluDiv_raised e; rfl
  | divReg =>
    rcases regForm_raised h with rfl | ⟨_, _, e⟩
    · rfl
    · cases aluDiv_raised e; rfl
  | inc | dec =>
    rcases unaryForm_raised h with rfl | ⟨_, e⟩
    · rfl
    · cases e
  | label | jmp | je | jne | jg | jb | halt => cases h
  | retn => exact absurd h retnHandler_ne_raised
  | call => cases callHandler_raised h; rfl
  | writeByteDword => rcases checkedByteWrite_raised h with rfl | rfl <;> rfl
  | writeByteReg =>
    rcases regForm_raised h with rfl | ⟨_, _, e⟩
    · rfl
    · rcases checkedByteWrite_raised e with rfl | rfl <;> rfl
  | writeWordDword => cases memWriteWord_raised h; rfl
  | writeWordReg =>
    rcases regForm_raised h with rfl | ⟨_, _, e⟩
    · rfl
    · cases memWriteWord_raised e; rfl
  | readByteDword =>
    rcases dwordForm_raised (op := fun d _ a => loadByte d a) h with rfl | ⟨_, e⟩
    · rfl
    · cases loadByte_raised e; rfl
  | readByteReg =>
    rcases regForm_raised (op := fun d _ a => loadByte d a) h with rfl | ⟨_, _, e⟩
    · rfl
    · cases loadByte_raised e; rfl
  | readWordDword =>
    rcases dwordForm_raised (op := fun d _ a => loadWord d a) h with rfl | ⟨_, e⟩
    · rfl
    · cases loadWord_raised e; rfl
  | readWordReg =>
    rcases regForm_raised (op := fun d _ a => loadWord d a) h with rfl | ⟨_, _, e⟩
    · rfl
    · cases loadWord_raised e; rfl
  | push =>
    rcases unaryForm_raised h with rfl | ⟨_, e⟩
    · rfl
    · cases pushRegister_raised e; rfl
  | pop =>
    rcases unaryForm_raised h with rfl | ⟨_, e⟩
    · rfl
    · cases popRegister_raised e; rfl
  | int => rcases intHandler_raised h with rfl | rfl <;> rfl

/-- ILLEGAL_OPCODE stands in no instruction's row of the table of R147. -/
theorem mayRaise_illegalOpcode (i : Instr) : mayRaise i .illegalOpcode = false := by cases i <;> rfl

/-! ## The step -/

/-- A running instruction that ends FAULTED took a fault that its handler raised. -/
theorem exec_faulted {i : Instr} {s t : State} {c : FaultCause} {info f : Word} (hs : s.status = .running)
    (h : exec i s = .next t) (hf : t.status = .faulted c info f) :
    handlerOf i s.ip (s.inHandler i.opcode) = .raised c info ∧ f = s.ip := by
  rcases exec_cases i s with ⟨u, hu, e⟩ | ⟨u, hu, e⟩ | ⟨c', info', hu, e⟩ <;> cases e.symm.trans h
  · obtain ⟨-, hst, -⟩ := handlerOf_done_run hu
    rw [State.status_setIp, hst, State.status_setIp, hs] at hf
    cases hf
  · obtain ⟨_, _, -, -, hb⟩ := handlerOf_blocked hu
    cases hb
    cases hf
  · cases hf
    exact ⟨hu, rfl⟩

/-- From RUNNING, only the fetch raises ILLEGAL_OPCODE. -/
theorem fetch_of_step_illegalOpcode {s t : State} {info f : Word} (hs : s.status = .running)
    (h : step s = .next t) (hf : t.status = .faulted .illegalOpcode info f) :
    fetch s = .raised .illegalOpcode info ∧ f = s.ip := by
  rw [step_running hs] at h
  cases e : fetch s with
  | ended => rw [e] at h; cases h; cases hf
  | raised c i => rw [e] at h; cases h; cases hf; exact ⟨rfl, rfl⟩
  | instr i =>
    rw [e] at h
    obtain ⟨hr, -⟩ := exec_faulted hs h hf
    have := mayRaise_of_handlerOf_raised hr
    rw [mayRaise_illegalOpcode] at this
    cases this

/-- Settles O9: the fetch raises ILLEGAL_OPCODE exactly outside 1 to 42, and nothing else of the step raises it. -/
theorem illegalOpcodeFaults : Obligations.IllegalOpcodeFaults := by
  intro s op hs h0 hop
  constructor
  · intro hout
    have hfetch : fetch s = .raised .illegalOpcode op :=
      fetchWith_eq_illegalOpcode.mpr ⟨h0, hop, Opcode.word_ne_iff.mpr hout⟩
    rw [step_running hs, hfetch]
    exact congrArg Host.Outcome.next (s.takeFault_self .illegalOpcode op)
  · rintro ⟨h1, h42⟩ t info f hstep hf
    obtain ⟨hfetch, -⟩ := fetch_of_step_illegalOpcode hs hstep hf
    obtain ⟨-, hinfo, hne⟩ := fetchWith_eq_illegalOpcode.mp hfetch
    obtain rfl : op = info := Option.some.inj (hop.symm.trans hinfo)
    have := Opcode.word_ne_iff.mp hne
    omega

end Sys2Proof.Machine
end

