-- ==== Sys2Proof/Proofs/ArithmeticRules.lean ====
section
/-! The rules of MOV, ADD, SUB and MUL (`40_arithmetic.md`). What a two-operand ALU operation writes is said once
(`AluOp.Computes`); the two operand forms (R83) and the frame of an instruction (R19, R20) carry it to `exec`. -/

namespace Sys2Proof.Machine

open Sys2Proof.Rules

/-! ## From a handler that completed to the instruction's effect -/

/-- An instruction whose handler completed with the registers `w` written has the effect of `Becomes`: the loop's
`ip + 1` falls on `rip` alone. -/
theorem becomes_of_done {i : Instr} {o : Opcode} {h : State → HandlerResult} {s t : State} {k : Nat}
    {w : Reg → Option Word} {f : Flags} {Rest : State → State → Prop} (hexec : exec i s = runHandler o h s)
    (hdone : h (s.inHandler o) = .done t) (hreg : ∀ r, t.reg r = (w r).getD (s.operand k r)) (hflags : t.flags = f)
    (hrest : Rest s (t.setIp (t.ip + 1))) : Becomes i s k w f Rest := by
  refine ⟨t.setIp (t.ip + 1), hexec.trans (runHandler_done hdone), fun r => ?_, hflags, hrest⟩
  rw [State.reg_setIp, ← hreg r]
  split
  · next hr => rw [hr]
  · exact (BitVec.add_zero _).symm

/-- `op` always completes; it writes the registers `w` and the flags `f`, and neither memory, call stack nor run. -/
def AluOp.Computes (op : AluOp) (w : Reg → Word → Word → Reg → Option Word) (f : Word → Word → Flags → Flags) : Prop :=
  ∀ (d : Reg) (a b : Word) (s : State), ∃ t : State, op d a b s = .done t ∧
    (∀ r, t.reg r = (w d a b r).getD (s.reg r)) ∧ t.flags = f a b s.flags ∧ SameData s t

/-- An operation that sets the flags and then writes one value to the destination computes just that. -/
theorem AluOp.computes_oneWrite {op : AluOp} {v : Word → Word → Word} {f : Word → Word → Flags → Flags}
    (h : ∀ d a b s, op d a b s = .done ((s.setFlags (f a b s.flags)).setReg d (v a b))) :
    AluOp.Computes op (fun d a b => oneWrite d (v a b)) f := by
  intro d a b s
  refine ⟨_, h d a b s, fun r => ?_, rfl, fun _ => rfl, ⟨rfl, fun _ => rfl⟩, rfl, rfl, rfl⟩
  simp only [State.reg_setReg, State.reg_setFlags, oneWrite]
  split <;> rfl

/-- The effect of an instruction of two operand Words whose handler applies `op` to what it reads: `a` and `b` are the
operands in the state the handler runs in. -/
theorem becomes_of_computes {i : Instr} {o : Opcode} {h : State → HandlerResult} {op : AluOp}
    {w : Reg → Word → Word → Reg → Option Word} {f : Word → Word → Flags → Flags} {s : State} {d : Reg} {a b : Word}
    (hop : AluOp.Computes op w f) (hexec : exec i s = runHandler o h s) (hk : o.operandCount = 2)
    (happly : h (s.inHandler o) = op d a b (s.inHandler o)) : Becomes i s 2 (w d a b) (f a b s.flags) SameData := by
  obtain ⟨t, hdone, hreg, hflags, hdata⟩ := hop d a b (s.inHandler o)
  refine becomes_of_done hexec (happly.trans hdone) (fun r => ?_) hflags hdata
  rw [hreg r, State.reg_inHandler, hk]

/-! ## The two operand forms (R83) -/

section Forms

variable {mk : Word → Word → Instr} {word : Word} {o : Opcode} {op : AluOp}
  {w : Reg → Word → Word → Reg → Option Word} {f : Word → Word → Flags → Flags}

/-- The DWORD fetch makes the checks of format `RI`, whatever the operation. -/
theorem dwordChecks_of_exec (henc : ∀ rd imm, encode (mk rd imm) = [word, rd, imm])
    (hexec : ∀ rd imm s, exec (mk rd imm) s = runHandler o (dwordForm rd imm op) s) : DwordChecks mk word :=
  ⟨henc, fun s rd imm hbad => (hexec rd imm s).trans (runHandler_raised (withReg_bad hbad _))⟩

/-- The REG fetch makes the checks of format `RR` in operand order, whatever the operation. -/
theorem regChecks_of_exec (henc : ∀ rd rs, encode (mk rd rs) = [word, rd, rs])
    (hexec : ∀ rd rs s, exec (mk rd rs) s = runHandler o (regForm rd rs op) s) : RegChecks mk word := by
  refine ⟨henc, fun s rd rs hbad => ?_, fun s d rs hbad => ?_⟩
  · exact (hexec rd rs s).trans (runHandler_raised (withReg_bad hbad _))
  · exact (hexec d.index rs s).trans (runHandler_raised ((withReg_index d _).trans (withReg_bad hbad _)))

/-- A DWORD form writes what its operation computes of the register and the immediate. -/
theorem dwordRule_of_computes (hop : AluOp.Computes op w f) (hk : o.operandCount = 2)
    (henc : ∀ rd imm, encode (mk rd imm) = [word, rd, imm])
    (hexec : ∀ rd imm s, exec (mk rd imm) s = runHandler o (dwordForm rd imm op) s) : DwordRule mk word w f := by
  refine ⟨dwordChecks_of_exec henc hexec, fun s d imm => becomes_of_computes hop (hexec _ _ s) hk ?_⟩
  rw [dwordForm_index, State.reg_inHandler, hk]

/-- A REG form writes what its operation computes of the two registers. -/
theorem regRule_of_computes (hop : AluOp.Computes op w f) (hk : o.operandCount = 2)
    (henc : ∀ rd rs, encode (mk rd rs) = [word, rd, rs])
    (hexec : ∀ rd rs s, exec (mk rd rs) s = runHandler o (regForm rd rs op) s) : RegRule mk word w f := by
  refine ⟨regChecks_of_exec henc hexec, fun s d r => becomes_of_computes hop (hexec _ _ s) hk ?_⟩
  rw [regForm_index, State.reg_inHandler, State.reg_inHandler, hk]

end Forms

/-! ## What MOV, ADD, SUB and MUL compute -/

/-- The formula of R7 gives the Word congruent to `n` modulo 2^32. -/
theorem wrapped_eq_wrap32 (n : Int) : wrapped n = wrap32 n := by
  apply BitVec.eq_of_toInt_eq
  rw [wrapped, wrap32, BitVec.toInt_ofInt, BitVec.toInt_ofInt, Int.bmod_def, Int.bmod_def]
  omega

theorem addSubFlags_eq_sumFlags (r : Int) : addSubFlags r = sumFlags r := rfl

theorem mulFlags_eq_productFlags (p : Int) : mulFlags p = productFlags p := rfl

theorem aluMov_computes : AluOp.Computes aluMov (fun d _ b => oneWrite d b) keepFlags :=
  AluOp.computes_oneWrite fun _ _ _ _ => rfl

theorem aluAdd_computes :
    AluOp.Computes aluAdd (fun d a b => oneWrite d (wrapped (a.toInt + b.toInt)))
      (fun a b _ => sumFlags (a.toInt + b.toInt)) :=
  AluOp.computes_oneWrite fun _ _ _ _ => by rw [aluAdd, wrapped_eq_wrap32, addSubFlags_eq_sumFlags]

theorem aluSub_computes :
    AluOp.Computes aluSub (fun d a b => oneWrite d (wrapped (a.toInt - b.toInt)))
      (fun a b _ => sumFlags (a.toInt - b.toInt)) :=
  AluOp.computes_oneWrite fun _ _ _ _ => by rw [aluSub, wrapped_eq_wrap32, addSubFlags_eq_sumFlags]

theorem aluMul_computes :
    AluOp.Computes aluMul (fun d a b => oneWrite d (wrapped (a.toInt * b.toInt)))
      (fun a b _ => productFlags (a.toInt * b.toInt)) :=
  AluOp.computes_oneWrite fun _ _ _ _ => by rw [aluMul, wrapped_eq_wrap32, mulFlags_eq_productFlags]

/-! ## The obligations -/

/-- Settles O21: MOV in both operand forms, from what `aluMov` computes. -/
theorem moveRules : Obligations.MoveRules :=
  ⟨dwordRule_of_computes aluMov_computes rfl (fun rd imm => (Laws.EncodedShape.movDword rd imm).1)
      fun rd imm => exec_eq (.movDword rd imm),
    regRule_of_computes aluMov_computes rfl (fun rd rs => (Laws.EncodedShape.movReg rd rs).1)
      fun rd rs => exec_eq (.movReg rd rs)⟩

/-- Settles O22: ADD in both operand forms, from what `aluAdd` computes. -/
theorem addRules : Obligations.AddRules :=
  ⟨dwordRule_of_computes aluAdd_computes rfl (fun rd imm => (Laws.EncodedShape.addDword rd imm).1)
      fun rd imm => exec_eq (.addDword rd imm),
    regRule_of_computes aluAdd_computes rfl (fun rd rs => (Laws.EncodedShape.addReg rd rs).1)
      fun rd rs => exec_eq (.addReg rd rs)⟩

/-- Settles O23: SUB in both operand forms, from what `aluSub` computes. -/
theorem subRules : Obligations.SubRules :=
  ⟨dwordRule_of_computes aluSub_computes rfl (fun rd imm => (Laws.EncodedShape.subDword rd imm).1)
      fun rd imm => exec_eq (.subDword rd imm),
    regRule_of_computes aluSub_computes rfl (fun rd rs => (Laws.EncodedShape.subReg rd rs).1)
      fun rd rs => exec_eq (.subReg rd rs)⟩

/-- Settles O24: MUL in both operand forms, from what `aluMul` computes. -/
theorem mulRules : Obligations.MulRules :=
  ⟨dwordRule_of_computes aluMul_computes rfl (fun rd imm => (Laws.EncodedShape.mulDword rd imm).1)
      fun rd imm => exec_eq (.mulDword rd imm),
    regRule_of_computes aluMul_computes rfl (fun rd rs => (Laws.EncodedShape.mulReg rd rs).1)
      fun rd rs => exec_eq (.mulReg rd rs)⟩

end Sys2Proof.Machine
end

