-- ==== Sys2Proof/Proofs/BitwiseRules.lean ====
section
/-! The rules of XOR, OR and AND (`41_bitwise.md`): what each operation computes, carried to `exec` by the rules of the
two operand forms (`dwordRule_of_computes`, `regRule_of_computes`). -/

namespace Sys2Proof.Machine

open Sys2Proof.Rules

/-! ## What XOR, OR and AND compute -/

/-- An operation that only writes one value to the destination keeps every flag (R100). -/
theorem AluOp.computes_keepFlags {op : AluOp} {v : Word → Word → Word}
    (h : ∀ d a b s, op d a b s = .done (s.setReg d (v a b))) :
    AluOp.Computes op (fun d a b => oneWrite d (v a b)) keepFlags :=
  AluOp.computes_oneWrite h

theorem aluXor_computes : AluOp.Computes aluXor (fun d a b => oneWrite d (a ^^^ b)) keepFlags :=
  AluOp.computes_keepFlags fun _ _ _ _ => rfl

theorem aluOr_computes : AluOp.Computes aluOr (fun d a b => oneWrite d (a ||| b)) keepFlags :=
  AluOp.computes_keepFlags fun _ _ _ _ => rfl

theorem aluAnd_computes : AluOp.Computes aluAnd (fun d a b => oneWrite d (a &&& b)) keepFlags :=
  AluOp.computes_keepFlags fun _ _ _ _ => rfl

/-! ## The obligation -/

/-- Settles O26: XOR, OR and AND in both operand forms, from what `aluXor`, `aluOr` and `aluAnd` compute. -/
theorem xorOrAndRules : Obligations.XorOrAndRules :=
  ⟨dwordRule_of_computes aluXor_computes rfl (fun rd imm => (Laws.EncodedShape.xorDword rd imm).1)
      fun rd imm => exec_eq (.xorDword rd imm),
    regRule_of_computes aluXor_computes rfl (fun rd rs => (Laws.EncodedShape.xorReg rd rs).1)
      fun rd rs => exec_eq (.xorReg rd rs),
    dwordRule_of_computes aluOr_computes rfl (fun rd imm => (Laws.EncodedShape.orDword rd imm).1)
      fun rd imm => exec_eq (.orDword rd imm),
    regRule_of_computes aluOr_computes rfl (fun rd rs => (Laws.EncodedShape.orReg rd rs).1)
      fun rd rs => exec_eq (.orReg rd rs),
    dwordRule_of_computes aluAnd_computes rfl (fun rd imm => (Laws.EncodedShape.andDword rd imm).1)
      fun rd imm => exec_eq (.andDword rd imm),
    regRule_of_computes aluAnd_computes rfl (fun rd rs => (Laws.EncodedShape.andReg rd rs).1)
      fun rd rs => exec_eq (.andReg rd rs)⟩

end Sys2Proof.Machine
end

