-- ==== Sys2Proof/Proofs/IncDecRules.lean ====
section
/-! The rules of INC and DEC (`42_incdec.md`). What a one-register operation writes is carried to `exec` once, by the
one-register fetch and the frame of an instruction (R19, R20). -/

namespace Sys2Proof.Machine

open Sys2Proof.Rules

/-! ## The one-register form -/

section UnaryForm

variable {mk : Word → Instr} {word : Word} {o : Opcode} {op : Reg → State → HandlerResult} {v : Word → Word}
  {f : Word → Flags → Flags}

/-- The one-register fetch makes the checks of format `R`, whatever the operation. -/
theorem unaryChecks_of_exec (henc : ∀ rd, encode (mk rd) = [word, rd])
    (hexec : ∀ rd s, exec (mk rd) s = runHandler o (unaryForm rd op) s) : UnaryChecks mk word :=
  ⟨henc, fun s rd hbad => (hexec rd s).trans (runHandler_raised (withReg_bad hbad _))⟩

/-- An operation that sets the flags and then replaces its register's value `a` by `v a` has that effect on the operand
that R19 gives. -/
theorem becomes_unaryForm
    (hop : ∀ d t, op d t = .done ((t.setFlags (f (t.reg d) t.flags)).setReg d (v (t.reg d))))
    (hexec : ∀ rd s, exec (mk rd) s = runHandler o (unaryForm rd op) s) (hk : o.operandCount = 1) (s : State)
    (d : Reg) :
    Becomes (mk d.index) s 1 (oneWrite d (v (s.operand 1 d))) (f (s.operand 1 d) s.flags) SameData := by
  have hread : ∀ r, (s.inHandler o).reg r = s.operand 1 r := fun r => by rw [State.reg_inHandler, hk]
  have hdone := (unaryForm_index d op (s.inHandler o)).trans (hop d _)
  rw [hread] at hdone
  refine becomes_of_done (hexec d.index s) hdone (fun r => ?_) rfl ⟨fun _ => rfl, ⟨rfl, fun _ => rfl⟩, rfl, rfl, rfl⟩
  rw [State.reg_setReg, State.reg_setFlags, hread, oneWrite]
  split <;> rfl

end UnaryForm

/-! ## What INC and DEC write -/

theorem incRegister_eq (d : Reg) (s : State) : incRegister d s =
    .done ((s.setFlags (incFlags (s.reg d) s.flags)).setReg d (wrapped ((s.reg d).toInt + 1))) := by
  rw [incRegister, wrapped_eq_wrap32]

theorem decRegister_eq (d : Reg) (s : State) : decRegister d s =
    .done ((s.setFlags (decFlags (s.reg d) s.flags)).setReg d (wrapped ((s.reg d).toInt - 1))) := by
  rw [decRegister, wrapped_eq_wrap32]

/-- INC adds one to the operand and writes the flags of `incFlags` (R110). -/
theorem inc_becomes (s : State) (d : Reg) :
    Becomes (.inc d.index) s 1 (oneWrite d (wrapped ((s.operand 1 d).toInt + 1)))
      (incFlags (s.operand 1 d) s.flags) SameData :=
  becomes_unaryForm (v := fun a => wrapped (a.toInt + 1)) incRegister_eq (fun rd => exec_eq (.inc rd)) rfl s d

/-- DEC subtracts one from the operand and writes the flags of `decFlags` (R111). -/
theorem dec_becomes (s : State) (d : Reg) :
    Becomes (.dec d.index) s 1 (oneWrite d (wrapped ((s.operand 1 d).toInt - 1)))
      (decFlags (s.operand 1 d) s.flags) SameData :=
  becomes_unaryForm (v := fun a => wrapped (a.toInt - 1)) decRegister_eq (fun rd => exec_eq (.dec rd)) rfl s d

/-! ## The obligation -/

/-- Settles O28: the checks of INC and DEC from the one-register fetch, their effects from what `incRegister` and
`decRegister` write; `incFlags` and `decFlags` are the flags of the rules. -/
theorem incDecRules : Obligations.IncDecRules :=
  ⟨unaryChecks_of_exec (fun rd => (Laws.EncodedShape.inc rd).1) fun rd => exec_eq (.inc rd),
    unaryChecks_of_exec (fun rd => (Laws.EncodedShape.dec rd).1) fun rd => exec_eq (.dec rd),
    inc_becomes, dec_becomes⟩

end Sys2Proof.Machine
end

