-- ==== Sys2Proof/Proofs/ControlRules.lean ====
section
/-! The rules of the jumps, CALL and RETN (`44_control.md`). An instruction that ends by writing `ip` has its effect
from one lemma (`becomes_of_setIp`); each handler says where it goes and what it does to the call stack. -/

namespace Sys2Proof.Machine

open Sys2Proof.Rules

/-! ## A handler that ends by writing `ip` -/

theorem sameData_setIp (s : State) (v : Word) : SameData s (s.setIp v) :=
  ⟨fun _ => rfl, ⟨rfl, fun _ => rfl⟩, rfl, rfl, rfl⟩

/-- A handler that changes no register and no flag up to its last write, `ip <- v`, has the effect of one write to
`rip`. -/
theorem becomes_of_setIp {i : Instr} {o : Opcode} {h : State → HandlerResult} {s t : State} {k : Nat} {v : Word}
    {Rest : State → State → Prop} (hexec : exec i s = runHandler o h s) (hk : o.operandCount = k)
    (hdone : h (s.inHandler o) = .done (t.setIp v)) (hregs : t.regs = (s.inHandler o).regs) (hflags : t.flags = s.flags)
    (hrest : Rest s (t.setIp (v + 1))) : Becomes i s k (oneWrite .rip v) s.flags Rest := by
  have hread : ∀ r, t.reg r = s.operand k r := fun r => by rw [← hk, ← State.reg_inHandler, State.reg, hregs, State.reg]
  refine becomes_of_done hexec hdone (fun r => ?_) hflags hrest
  rw [State.reg_setIp, hread, oneWrite]
  split <;> rfl

/-! ## The jumps -/

/-- A handler that jumps when `taken` holds of the flags makes its instruction a relative jump (R119 to R123). -/
theorem jumpRule_of_exec {mk : Word → Instr} {word : Word} {o : Opcode} (taken : Flags → Bool)
    (hk : o.operandCount = 1) (henc : ∀ off, encode (mk off) = [word, off])
    (hexec : ∀ off s, exec (mk off) s = runHandler o (fun t => jumpIf (taken t.flags) off t) s) :
    JumpRule mk word taken := by
  refine ⟨henc, fun s off => ?_⟩
  have hread : ∀ r, (s.inHandler o).reg r = s.operand 1 r := fun r => by rw [State.reg_inHandler, hk]
  cases htaken : taken s.flags with
  | true =>
    refine becomes_of_setIp (hexec off s) hk (t := s.inHandler o) ?_ rfl rfl (sameData_setIp s _)
    simp only [jumpIf, State.flags_setIp, htaken, if_true, wrapped_eq_wrap32, ← hread, State.ip_eq]
  | false =>
    refine becomes_of_done (hexec off s) (t := s.inHandler o) ?_ hread rfl (sameData_setIp s _)
    simp only [jumpIf, State.flags_setIp, htaken, Bool.false_eq_true, if_false]

/-- Settles O32: each of the five jumps runs `jumpIf` on its own condition of the flags. -/
theorem jumpRules : Obligations.JumpRules :=
  ⟨jumpRule_of_exec (fun _ => true) rfl (fun off => (Laws.EncodedShape.jmp off).1) fun off => exec_eq (.jmp off),
    jumpRule_of_exec (fun f => f.equal) rfl (fun off => (Laws.EncodedShape.je off).1) fun off => exec_eq (.je off),
    jumpRule_of_exec (fun f => !f.equal) rfl (fun off => (Laws.EncodedShape.jne off).1) fun off => exec_eq (.jne off),
    jumpRule_of_exec (fun f => f.greater) rfl (fun off => (Laws.EncodedShape.jg off).1) fun off => exec_eq (.jg off),
    jumpRule_of_exec (fun f => f.lower) rfl (fun off => (Laws.EncodedShape.jb off).1) fun off => exec_eq (.jb off)⟩

/-! ## CALL -/

/-- `wrap32(ip - 1)` undoes the `+ 1` of an instruction of one operand Word: it is the index of the instruction. -/
theorem wrap32_add_one_sub_one (w : Word) : wrap32 ((w + 1).toInt - 1) = w := by
  have hneg : BitVec.ofInt 32 (-1) = -(1 : Word) := by decide
  rw [wrap32, Int.sub_eq_add_neg, BitVec.ofInt_add, BitVec.ofInt_toInt, hneg, add_neg_cancel_right]

/-- What CALL's handler can do where it runs: push the CALL's own index and go to the target, or raise (R31, R124). -/
theorem callHandler_cases (tgt : Word) (s : State) :
    (s.stack.sp < Config.stackUsable ∧ callHandler tgt (s.inHandler .call) =
        .done ({ s.inHandler .call with stack := s.stack.push (s.reg .rip) }.setIp tgt)) ∨
      (Config.stackUsable ≤ s.stack.sp ∧
        callHandler tgt (s.inHandler .call) = .raised .stackOverflow (s.reg .rip)) := by
  have hip : (s.inHandler .call).ip = s.reg .rip + 1 := State.reg_inHandler s .call .rip
  rw [callHandler, hip, wrap32_add_one_sub_one]
  exact pushWord_cases (s.reg .rip) (s.inHandler .call) _

/-- CALL on a full stack takes `STACK_OVERFLOW` with its own index (R31, R124). -/
theorem call_full {s : State} (tgt : Word) (hfull : Config.stackUsable ≤ s.stack.sp) :
    exec (.call tgt) s = .next (s.faultedAt .stackOverflow (s.reg .rip)) := by
  rcases callHandler_cases tgt s with ⟨hroom, _⟩ | ⟨_, hraised⟩
  · exact absurd hroom (Nat.not_lt.mpr hfull)
  · exact (exec_eq (.call tgt) s).trans (runHandler_raised hraised)

/-- CALL with room on the stack pushes its own index and goes to its target (R31, R124). -/
theorem call_becomes {s : State} (tgt : Word) (hroom : s.stack.sp < Config.stackUsable) :
    Becomes (.call tgt) s 1 (oneWrite .rip tgt) s.flags
      fun s t => Pushed s t (s.reg .rip) ∧ SameMemory s t ∧ SameRun s t := by
  rcases callHandler_cases tgt s with ⟨_, hdone⟩ | ⟨hfull, _⟩
  · exact becomes_of_setIp (exec_eq (.call tgt) s) rfl hdone rfl rfl
      ⟨⟨rfl, CallStack.slot_push s.stack (s.reg .rip)⟩, fun _ => rfl, rfl, rfl, rfl⟩
  · exact absurd hroom (Nat.not_lt.mpr hfull)

/-- Settles O33: what the push of CALL's own index can do, at the bound 255 and below it. -/
theorem callRule : Obligations.CallRule :=
  ⟨fun tgt => (Laws.EncodedShape.call tgt).1, fun _ tgt => ⟨fun hfull => call_full tgt hfull.ge, call_becomes tgt⟩⟩

/-! ## RETN -/

/-- On an empty stack RETN's handler is HALT's (R125, R141). -/
theorem retnHandler_empty {s : State} (hempty : s.stack.sp = 0) : retnHandler s = haltHandler s := if_pos hempty

/-- On a stack that is not empty RETN's handler pops `a` and goes to `a + 1` (R125). -/
theorem retnHandler_nonempty {s : State} (hpos : 0 < s.stack.sp) :
    retnHandler s = .done ({ s with stack := s.stack.pop }.setIp (wrapped (s.stack.top.toInt + 1))) := by
  rw [retnHandler, if_neg hpos.ne', wrapped_eq_wrap32]

/-- RETN on an empty stack answers what HALT answers: neither has operand Words, so their handlers run in the same
state. -/
theorem retn_eq_halt {s : State} (hempty : s.stack.sp = 0) : exec .retn s = exec .halt s := by
  have hretn : retnHandler (s.inHandler .retn) = .done (endProgram (s.inHandler .retn)) := retnHandler_empty hempty
  have hhalt : haltHandler (s.inHandler .halt) = .done (endProgram (s.inHandler .halt)) := rfl
  rw [exec_eq, exec_eq]
  exact (runHandler_done hretn).trans (runHandler_done hhalt).symm

/-- HALT sets `ip` to `PLEN` and changes nothing else (R141). -/
theorem halt_becomes (s : State) :
    Becomes .halt s 0 (oneWrite .rip (BitVec.ofNat 32 s.program.length)) s.flags SameData :=
  becomes_of_setIp (t := s.inHandler .halt) (exec_eq .halt s) rfl rfl rfl rfl (sameData_setIp s _)

/-- RETN on an empty stack sets `ip` to `PLEN` and changes nothing else (R125). -/
theorem retn_empty_becomes {s : State} (hempty : s.stack.sp = 0) :
    Becomes .retn s 0 (oneWrite .rip (BitVec.ofNat 32 s.program.length)) s.flags SameData := by
  rw [Becomes, retn_eq_halt hempty]
  exact halt_becomes s

/-- RETN pops the top entry `a` and goes to `a + 1`; the entry stays in its slot (R32, R125). -/
theorem retn_becomes {s : State} (hpos : 0 < s.stack.sp) :
    Becomes .retn s 0 (oneWrite .rip (wrapped ((s.stack.slot s.stack.sp).toInt + 1))) s.flags
      fun s t => Popped s t ∧ SameMemory s t ∧ SameRun s t :=
  becomes_of_setIp (exec_eq .retn s) rfl (retnHandler_nonempty (s := s.inHandler .retn) hpos) rfl rfl
    ⟨⟨Nat.sub_add_cancel hpos, CallStack.slot_pop s.stack⟩, fun _ => rfl, rfl, rfl, rfl⟩

/-- Settles O34: on an empty stack RETN is HALT, on any other it pops its return index. -/
theorem returnRule : Obligations.ReturnRule :=
  ⟨Laws.EncodedShape.retn.1, fun _ => ⟨fun hempty => ⟨retn_eq_halt hempty, retn_empty_becomes hempty⟩, retn_becomes⟩⟩

end Sys2Proof.Machine
end

