-- ==== Sys2Proof/Proofs/MemoryRules.lean ====
section
/-! The rules of the byte and word writes and of the word read (`45_memory_ops.md`). The DWORD and the REG form of one
access delegate to the same handler (R127), so each effect is proved once, of every instruction that runs it. -/

namespace Sys2Proof.Machine

open Sys2Proof.Rules

/-! ## Bounds and bytes in the statements' terms -/

theorem byteInBounds_iff_not {a : Word} : byteInBounds a ↔ ¬(a.toInt < 0 ∨ 65535 < a.toInt) := by
  rw [not_or, not_lt, not_lt]

theorem wordInBounds_iff_not {a : Word} : wordInBounds a ↔ ¬(a.toInt < 0 ∨ 65532 < a.toInt) := by
  rw [not_or, not_lt, not_lt]

/-- A value passes the check of a byte write exactly when it is in the byte range (R128). -/
theorem byteValue_iff_not {v : Word} :
    (-128 ≤ v.toInt ∧ v.toInt ≤ 127) ↔ ¬(Config.byteMax < v.toInt ∨ v.toInt < Config.byteMin) := by
  rw [byteMax_eq, byteMin_eq, not_or, not_lt, not_lt, and_comm]

/-- The byte stored is the value mod 256 (R46). -/
theorem setWidth_eq_ofInt_toInt (v : Word) : v.setWidth 8 = BitVec.ofInt 8 v.toInt :=
  (BitVec.signExtend_eq_setWidth_of_le v (by decide)).symm

/-- Byte `j` of a Word is its value shifted down to that byte, mod 256 (R47). -/
theorem wordByte_eq_ofNat (v : Word) (j : Nat) : wordByte v j = BitVec.ofNat 8 (v.toNat / 2 ^ (24 - 8 * j)) :=
  congrArg (BitVec.ofNat 8) (Nat.shiftRight_eq_div_pow _ _)

/-- The four stored bytes of a Word, the most significant first (R47). -/
theorem Memory.byte_setWord_add (m : Memory) (a : Nat) (v : Word) {j : Nat} (hj : j < 4) :
    (m.setWord a v).byte (a + j) = BitVec.ofNat 8 (v.toNat / 2 ^ (24 - 8 * j)) := by
  rw [← wordByte_eq_ofNat, Memory.byte_setWord]
  interval_cases j <;> simp

/-- A word store reaches no byte outside its four (R47). -/
theorem Memory.byte_setWord_outside (m : Memory) (v : Word) {a n : Nat} (hn : n < a ∨ a + 3 < n) :
    (m.setWord a v).byte n = m.byte n := by
  rw [Memory.byte_setWord, if_neg (by omega), if_neg (by omega), if_neg (by omega), if_neg (by omega)]

/-! ## What the REG fetch hands to an operation -/

/-- A REG form of two operand Words hands its operation what R19 says its registers read as. -/
theorem regForm_inHandler {o : Opcode} (hk : o.operandCount = 2) (op : AluOp) (s : State) (d r : Reg) :
    regForm d.index r.index op (s.inHandler o) = op d (s.operand 2 d) (s.operand 2 r) (s.inHandler o) := by
  rw [regForm_index, State.reg_inHandler, State.reg_inHandler, hk]

/-! ## A handler that stores to memory, and one that loads a register -/

/-- A handler that only replaces memory writes no register and no flag. -/
theorem becomes_of_setMem {i : Instr} {o : Opcode} {h : State → HandlerResult} {s : State} {k : Nat} {m : Memory}
    {Rest : State → State → Prop} (hexec : exec i s = runHandler o h s) (hk : o.operandCount = k)
    (hdone : h (s.inHandler o) = .done { s.inHandler o with mem := m })
    (hrest : ∀ t : State, t.mem = m → SameStack s t → SameRun s t → Rest s t) :
    Becomes i s k noWrite s.flags Rest :=
  becomes_of_done hexec hdone (fun r => by rw [← hk]; exact s.reg_inHandler o r) rfl
    (hrest _ rfl ⟨rfl, fun _ => rfl⟩ ⟨rfl, rfl, rfl⟩)

/-- A handler that only writes `v` to `d` has the effect of that one write. -/
theorem becomes_of_setReg {i : Instr} {o : Opcode} {h : State → HandlerResult} {s : State} {k : Nat} {d : Reg}
    {v : Word} (hexec : exec i s = runHandler o h s) (hk : o.operandCount = k)
    (hdone : h (s.inHandler o) = .done ((s.inHandler o).setReg d v)) :
    Becomes i s k (oneWrite d v) s.flags SameData := by
  refine becomes_of_done hexec hdone (fun r => ?_) rfl ⟨fun _ => rfl, ⟨rfl, fun _ => rfl⟩, rfl, rfl, rfl⟩
  rw [State.reg_setReg, State.reg_inHandler, hk, oneWrite]
  split <;> rfl

/-- The word load as an operation of the two operand fetches (R83): the second operand is the address. -/
abbrev loadWordAt : AluOp := fun d _ a => loadWord d a

/-! ## The effect of each access, whatever instruction runs it -/

section Effects

variable {i : Instr} {o : Opcode} {h : State → HandlerResult} {s : State} {d : Reg} {a v : Word}

/-- The three outcomes of the checked byte write are the three clauses of a byte write (R128). -/
theorem byteStoreEffect_of_exec (hexec : exec i s = runHandler o h s) (hk : o.operandCount = 2)
    (happly : h (s.inHandler o) = checkedByteWrite a v (s.inHandler o)) : ByteStoreEffect i s a v := by
  rw [ByteStoreEffect, ← byteInBounds, byteInBounds_iff_not, byteValue_iff_not, ← byteMax_eq, ← byteMin_eq]
  rcases checkedByteWrite_cases a v (s.inHandler o) with
    ⟨hvalue, hraised⟩ | ⟨hvalue, haddr, hraised⟩ | ⟨hvalue, haddr, hdone⟩
  · exact ⟨fun _ => hexec.trans (runHandler_raised (happly.trans hraised)), fun hn => absurd hvalue hn,
      fun hn => absurd hvalue hn⟩
  · rw [byteInBounds_iff_not] at haddr
    exact ⟨fun hbad => absurd hbad hvalue, fun _ _ => hexec.trans (runHandler_raised (happly.trans hraised)),
      fun _ hin => absurd hin haddr⟩
  · rw [byteInBounds_iff_not] at haddr
    refine ⟨fun hbad => absurd hbad hvalue, fun _ hout => absurd hout haddr, fun _ _ =>
      becomes_of_setMem hexec hk (happly.trans hdone) fun t hmem hstack hrun => ⟨fun n => ?_, hstack, hrun⟩⟩
    rw [hmem, Memory.byte_setByte, setWidth_eq_ofInt_toInt, State.mem_setIp]

/-- The two outcomes of the word write are the two clauses of a big-endian store (R47). -/
theorem wordStoreEffect_of_exec (hexec : exec i s = runHandler o h s) (hk : o.operandCount = 2)
    (happly : h (s.inHandler o) = memWriteWord a v (s.inHandler o)) : WordStoreEffect i s a v := by
  rw [WordStoreEffect, ← wordInBounds, wordInBounds_iff_not]
  rcases memWriteWord_cases a v (s.inHandler o) with ⟨haddr, hdone⟩ | ⟨haddr, hraised⟩ <;>
    rw [wordInBounds_iff_not] at haddr
  · refine ⟨fun hout => absurd hout haddr, fun _ =>
      becomes_of_setMem hexec hk (happly.trans hdone) fun t hmem hstack hrun => ?_⟩
    rw [State.mem_setIp] at hmem
    have hbyte : ∀ j, j < 4 → t.mem.byte (a.toNat + j) = BitVec.ofNat 8 (v.toNat / 2 ^ (24 - 8 * j)) :=
      fun j hj => by rw [hmem, Memory.byte_setWord_add s.mem a.toNat v hj]
    have hlast := hbyte 3 (by decide)
    rw [Nat.pow_zero, Nat.div_one] at hlast
    exact ⟨hbyte 0 (by decide), hbyte 1 (by decide), hbyte 2 (by decide), hlast,
      fun n hn => by rw [hmem, Memory.byte_setWord_outside s.mem v hn], hstack, hrun⟩
  · exact ⟨fun _ => hexec.trans (runHandler_raised (happly.trans hraised)), fun hin => absurd hin haddr⟩

/-- The two outcomes of the word load are the two clauses of a big-endian load (R45). -/
theorem wordLoadEffect_of_exec (hexec : exec i s = runHandler o h s) (hk : o.operandCount = 2)
    (happly : h (s.inHandler o) = loadWord d a (s.inHandler o)) : WordLoadEffect i s d a := by
  rw [WordLoadEffect, ← wordInBounds, wordInBounds_iff_not, ← Memory.word_eq]
  rcases memReadWord_cases a (s.inHandler o) (fun w => .done ((s.inHandler o).setReg d w)) with
    ⟨haddr, hdone⟩ | ⟨haddr, hraised⟩ <;> rw [wordInBounds_iff_not] at haddr
  · exact ⟨fun hout => absurd hout haddr, fun _ => becomes_of_setReg hexec hk (happly.trans hdone)⟩
  · exact ⟨fun _ => hexec.trans (runHandler_raised (happly.trans hraised)), fun hin => absurd hin haddr⟩

end Effects

/-! ## The obligations -/

/-- Settles O36: both forms run the checked byte write, the REG form on what its two registers read as. -/
theorem byteWriteRules : Obligations.ByteWriteRules :=
  ⟨fun addr imm => (Laws.EncodedShape.writeByteDword addr imm).1,
    fun s addr imm => byteStoreEffect_of_exec (exec_eq (.writeByteDword addr imm) s) rfl rfl,
    regChecks_of_exec (fun ra rv => (Laws.EncodedShape.writeByteReg ra rv).1)
      fun ra rv => exec_eq (.writeByteReg ra rv),
    fun s a v => byteStoreEffect_of_exec (exec_eq (.writeByteReg a.index v.index) s) rfl
      (regForm_inHandler rfl _ s a v)⟩

/-- Settles O37: both forms run the word write, the REG form on what its two registers read as. -/
theorem wordWriteRules : Obligations.WordWriteRules :=
  ⟨fun addr imm => (Laws.EncodedShape.writeWordDword addr imm).1,
    fun s addr imm => wordStoreEffect_of_exec (exec_eq (.writeWordDword addr imm) s) rfl rfl,
    regChecks_of_exec (fun ra rv => (Laws.EncodedShape.writeWordReg ra rv).1)
      fun ra rv => exec_eq (.writeWordReg ra rv),
    fun s a v => wordStoreEffect_of_exec (exec_eq (.writeWordReg a.index v.index) s) rfl
      (regForm_inHandler rfl _ s a v)⟩

/-- Settles O39: both forms run the word load, the REG form at what its address register reads as. -/
theorem wordReadRules : Obligations.WordReadRules :=
  ⟨dwordChecks_of_exec (op := loadWordAt) (fun rd addr => (Laws.EncodedShape.readWordDword rd addr).1)
      fun rd addr => exec_eq (.readWordDword rd addr),
    regChecks_of_exec (op := loadWordAt) (fun rd ra => (Laws.EncodedShape.readWordReg rd ra).1)
      fun rd ra => exec_eq (.readWordReg rd ra),
    fun s d addr => wordLoadEffect_of_exec (exec_eq (.readWordDword d.index addr) s) rfl
      (dwordForm_index d addr loadWordAt _),
    fun s d a => wordLoadEffect_of_exec (exec_eq (.readWordReg d.index a.index) s) rfl
      (regForm_inHandler rfl loadWordAt s d a)⟩

end Sys2Proof.Machine
end

/-! The rule of HALT (`47_system.md`): its effect is the one that RETN on an empty stack shares (`halt_becomes`), and
the boundary check of the next step ends the run. -/

namespace Sys2Proof.Machine

open Sys2Proof.Rules

/-- A running step at or past the end of the program halts the run and changes nothing else (R164). -/
theorem step_ended {s : State} (hrun : s.status = .running) (hend : (s.program.length : Int) ≤ (s.reg .rip).toInt) :
    step s = .next { s with status := .halted } := by
  have hfetch : fetch s = .ended := fetchWith_ended hend
  rw [step_running hrun, hfetch]
  rfl

/-- A Word counts past the length of a legal program: `PLEN + 1` does not wrap (R28). -/
theorem toInt_ofNat_add_one {n : Nat} (hn : n ≤ Config.maxPlen) : (BitVec.ofNat 32 n + 1 : Word).toInt = n + 1 := by
  rw [maxPlen_eq] at hn
  have hadd : (BitVec.ofNat 32 n + 1 : Word) = BitVec.ofNat 32 (n + 1) := (BitVec.ofNat_add n 1).symm
  rw [hadd, BitVec.toInt_ofNat', Int.bmod_def]
  omega

/-- From a running state with a program of legal length, HALT leaves `ip` at `PLEN + 1` and the next step halts. -/
theorem halt_then_step_halts {s : State} (hrun : s.status = .running) (hlen : s.program.length ≤ Config.maxPlen) :
    ∃ t : State, exec .halt s = .next t ∧ (t.reg .rip).toInt = s.program.length + 1 ∧
      step t = .next { t with status := .halted } := by
  obtain ⟨t, hexec, hregs, -, -, -, hprog, hstatus, -⟩ := halt_becomes s
  have hip : (t.reg .rip).toInt = s.program.length + 1 := by
    rw [hregs .rip]
    exact toInt_ofNat_add_one hlen
  exact ⟨t, hexec, hip, step_ended (hstatus.trans hrun) (by rw [hprog, hip]; omega)⟩

/-- Settles O43: HALT's one write of `ip`, RETN's agreement on an empty stack, and the boundary check after it. -/
theorem haltRule : Obligations.HaltRule :=
  ⟨Laws.EncodedShape.halt.1, fun s => ⟨halt_becomes s, retn_eq_halt, halt_then_step_halts⟩⟩

end Sys2Proof.Machine

/-! The codec (`30_encoding.md`): one equivalence says which Words decode to an instruction under any opcode map, and
both directions of the codec are read off it. -/

namespace Sys2Proof

/-! ## Operand Words -/

theorem Opcode.operandCount_le_two (o : Opcode) : o.operandCount ≤ 2 := by cases o <;> decide

/-- An instruction is rebuilt from its opcode and its operand Words (R65). -/
theorem Instr.build_operands (i : Instr) : i.opcode.build (i.operands.getD 0 0) (i.operands.getD 1 0) = i := by
  cases i <;> rfl

@[simp] theorem Opcode.opcode_build (o : Opcode) (o1 o2 : Word) : (o.build o1 o2).opcode = o := by cases o <;> rfl

/-- Building keeps as many of the two operand Words as the opcode takes. -/
theorem Opcode.operands_build (o : Opcode) (o1 o2 : Word) :
    (o.build o1 o2).operands = [o1, o2].take o.operandCount := by
  cases o <;> rfl

/-- Exactly as many operand Words as the opcode takes are kept in full. -/
theorem Opcode.operands_build_of_length {o : Opcode} {ops : List Word} (h : ops.length = o.operandCount) :
    (o.build (ops.getD 0 0) (ops.getD 1 0)).operands = ops := by
  have hle := o.operandCount_le_two
  rw [operands_build, ← h]
  rcases ops with _ | ⟨o1, _ | ⟨o2, _ | ⟨o3, ops⟩⟩⟩
  · rfl
  · rfl
  · rfl
  · simp only [List.length_cons] at h
    omega

/-! ## The decoder -/

/-- What the decoder does after an assigned opcode Word: with enough operand Words it builds the instruction, and else
it names the first one missing (R64). -/
theorem decodeWith_cons {map : Opcode → Word} {w : Word} {o : Opcode} (h : lookupOpcode map w = some o)
    (ws : List Word) :
    decodeWith map (w :: ws) =
      if o.operandCount ≤ ws.length then
        .ok (o.build ((ws.take o.operandCount).getD 0 0) ((ws.take o.operandCount).getD 1 0), ws.drop o.operandCount)
      else .error (.truncated (ws.length + 1)) := by
  have hle := o.operandCount_le_two
  simp only [decodeWith, h]
  generalize o.operandCount = k at hle ⊢
  interval_cases k <;> rcases ws with _ | ⟨o1, _ | ⟨o2, rest⟩⟩ <;> simp

/-- Exactly the empty sequence has no opcode Word. -/
theorem decodeWith_eq_noWords {map : Opcode → Word} {ws : List Word} :
    decodeWith map ws = .error .noWords ↔ ws = [] := by
  cases ws with
  | nil => simp [decodeWith]
  | cons w ws =>
    cases h : lookupOpcode map w with
    | none => simp [decodeWith, h]
    | some o =>
      rw [decodeWith_cons h]
      split <;> simp

/-- The Words that decode to `i` with `rest` left: a Word that the map gives to `i`'s opcode, the operand Words of
`i`, then `rest`. -/
theorem decodeWith_eq_ok {map : Opcode → Word} {ws rest : List Word} {i : Instr} :
    decodeWith map ws = .ok (i, rest) ↔
      ∃ w, lookupOpcode map w = some i.opcode ∧ ws = w :: (i.operands ++ rest) := by
  constructor
  · intro h
    cases ws with
    | nil => cases h
    | cons w ws =>
      cases hl : lookupOpcode map w with
      | none => simp [decodeWith, hl] at h
      | some o =>
        rw [decodeWith_cons hl] at h
        split at h
        · next hlen =>
          cases h
          refine ⟨w, by rw [Opcode.opcode_build, hl], ?_⟩
          rw [Opcode.operands_build_of_length (List.length_take_of_le hlen), List.take_append_drop]
        · cases h
  · rintro ⟨w, hl, rfl⟩
    have hlen : i.opcode.operandCount = i.operands.length := i.operands_length.symm
    rw [decodeWith_cons hl, hlen, if_pos (by simp), List.take_left, List.drop_left, i.build_operands]

/-- Under a map that assigns distinct Words, the Words that decode to `i` with `rest` left are the encoding of `i` and
then `rest`. -/
theorem decodeWith_eq_ok_iff {map : Opcode → Word} (hm : Function.Injective map) {ws rest : List Word} {i : Instr} :
    decodeWith map ws = .ok (i, rest) ↔ ws = encodeWith map i ++ rest := by
  rw [decodeWith_eq_ok]
  constructor
  · rintro ⟨w, hl, rfl⟩
    rw [← lookupOpcode_some hl]
    rfl
  · rintro rfl
    exact ⟨map i.opcode, lookupOpcode_self hm _, rfl⟩

/-! ## The obligations -/

/-- Settles O6: the encoding is the one sequence of Words that decodes to its instruction. -/
theorem decodeOfEncodeUnderAnyOpcodeMap : Obligations.DecodeOfEncodeUnderAnyOpcodeMap :=
  ⟨fun _ hm _ _ => (decodeWith_eq_ok_iff fun _ _ => hm _ _).mpr rfl,
    fun _ _ => (decodeWith_eq_ok_iff Opcode.word_injective).mpr rfl⟩

/-- Settles O7: the other direction of the same equivalence, for the default map. -/
theorem encodeOfDecodeGivesTheWords : Obligations.EncodeOfDecodeGivesTheWords :=
  fun _ _ _ => (decodeWith_eq_ok_iff Opcode.word_injective).mp

/-- Settles O8: each sequence is the encoding of its instruction and then the Words left. -/
theorem writtenOutWordsDecode : Obligations.WrittenOutWordsDecode := by
  have hdecode : ∀ i rest, decode (encode i ++ rest) = .ok (i, rest) := decodeOfEncodeUnderAnyOpcodeMap.2
  exact ⟨hdecode (.movDword 0 5) _, hdecode (.addDword 0 3) _, hdecode .halt _, hdecode (.call 8) _,
    hdecode (.writeWordReg 0 8) _, hdecode (.int 5) _, hdecode (.je (-6)) _⟩

end Sys2Proof

/-! What an instruction may do, said once for all 42: a handler that completes has only made the writes that its
instruction's rows of the tables of R17 and R24 allow (`Writes`), and every frame fact follows by induction on those
writes. The ends of `exec`, of the fetch and of the response step are listed beside it. -/

namespace Sys2Proof.Machine

open Sys2Proof.Rules

/-! ## The writes that an instruction may make -/

/-- Instruction `i` may leave the flags `g` where it found `f`: only its row of R24 changes, and at most one of the
comparison flags is true after it if at most one was before (R26). -/
structure FlagsAllowed (i : Instr) (f g : Flags) : Prop where
  overflow : (flagRow i).1 = false → g.overflow = f.overflow
  underflow : (flagRow i).2.1 = false → g.underflow = f.underflow
  comparison : (flagRow i).2.2 = false → g.greater = f.greater ∧ g.lower = f.lower ∧ g.equal = f.equal
  exclusive : f.exclusive → g.exclusive

/-- State `t` comes from `s` by writes that instruction `i` is allowed: its destination registers (and `rip`, where it
transfers control), its flags, bytes of memory in bounds, and pushes and pops within the stack's capacity. -/
inductive Writes (i : Instr) (s : State) : State → Prop where
  | nothing : Writes i s s
  | reg {t : State} (d : Reg) (v : Word) (hd : mayWrite i d ∨ transfersControl i = true ∧ d = .rip)
      (before : Writes i s t) : Writes i s (t.setReg d v)
  | flags {t : State} {f : Flags} (hf : FlagsAllowed i t.flags f) (before : Writes i s t) : Writes i s (t.setFlags f)
  | byte {t : State} (hi : writesMemory i = true) {a : Nat} (ha : a < Config.memSize) (b : Byte)
      (before : Writes i s t) : Writes i s { t with mem := t.mem.setByte a b }
  | word {t : State} (hi : writesMemory i = true) {a : Nat} (ha : a + 3 < Config.memSize) (v : Word)
      (before : Writes i s t) : Writes i s { t with mem := t.mem.setWord a v }
  | push {t : State} (hi : usesStack i = true) (hroom : t.stack.sp < Config.stackUsable) (v : Word)
      (before : Writes i s t) : Writes i s { t with stack := t.stack.push v }
  | pop {t : State} (hi : usesStack i = true) (before : Writes i s t) : Writes i s { t with stack := t.stack.pop }

/-! ## What each operation does when it completes -/

theorem dwordForm_done {rd imm : Word} {op : AluOp} {s t : State} (h : dwordForm rd imm op s = .done t) :
    ∃ d : Reg, rd = d.index ∧ op d (s.reg d) imm s = .done t := by
  rcases dwordForm_cases rd imm op s with ⟨d, hd, e⟩ | ⟨-, e⟩ <;> rw [e] at h
  · exact ⟨d, hd, h⟩
  · cases h

theorem regForm_done {rd rs : Word} {op : AluOp} {s t : State} (h : regForm rd rs op s = .done t) :
    ∃ d r : Reg, rd = d.index ∧ op d (s.reg d) (s.reg r) s = .done t := by
  rcases regForm_cases rd rs op s with ⟨d, r, hd, -, e⟩ | ⟨-, e⟩ | ⟨_, -, -, e⟩ <;> rw [e] at h
  · exact ⟨d, r, hd, h⟩
  · cases h
  · cases h

theorem unaryForm_done {rd : Word} {op : Reg → State → HandlerResult} {s t : State}
    (h : unaryForm rd op s = .done t) : ∃ d : Reg, rd = d.index ∧ op d s = .done t := by
  rcases unaryForm_cases rd op s with ⟨d, hd, e⟩ | ⟨-, e⟩ <;> rw [e] at h
  · exact ⟨d, hd, h⟩
  · cases h

section Operations

variable {i : Instr} {s t : State} {d : Reg} {a b : Word}

theorem aluDiv_writes (hd : mayWrite i d) (h6 : mayWrite i .r6) (h : aluDiv d a b s = .done t) : Writes i s t := by
  simp only [aluDiv] at h
  split at h <;> cases h
  exact .reg _ _ (.inl h6) (.reg _ _ (.inl hd) .nothing)

/-- The flags of a comparison: one of the three is true, and OVERFLOW and UNDERFLOW are kept (R113). -/
theorem compareFlags_allowed (hrow : flagRow i = (false, false, true)) (gt : Bool) (f : Flags) :
    FlagsAllowed i f (compareFlags a b gt f) := by
  refine ⟨fun _ => ?_, fun _ => ?_, fun h => by simp [hrow] at h, fun _ => ?_⟩ <;> simp only [compareFlags] <;>
    split
  · rfl
  · split <;> rfl
  · rfl
  · split <;> rfl
  · exact ⟨rfl, rfl, rfl⟩
  · split <;> exact ⟨rfl, rfl, rfl⟩

theorem loadByte_writes (hd : mayWrite i d) (h : loadByte d a s = .done t) : Writes i s t := by
  rcases memReadByte_cases a s (fun b => .done (s.setReg d (sext8 b))) with ⟨-, e⟩ | ⟨-, e⟩ <;> cases e.symm.trans h
  exact .reg _ _ (.inl hd) .nothing

theorem loadWord_writes (hd : mayWrite i d) (h : loadWord d a s = .done t) : Writes i s t := by
  rcases memReadWord_cases a s (fun w => .done (s.setReg d w)) with ⟨-, e⟩ | ⟨-, e⟩ <;> cases e.symm.trans h
  exact .reg _ _ (.inl hd) .nothing

/-- An address in byte bounds is an address of memory (R43). -/
theorem byteInBounds.toNat_le {a : Word} (h : byteInBounds a) : a.toNat ≤ 65535 := by
  have := Word.toInt_eq_toNat h.1
  have := h.2
  omega

theorem wordInBounds.toNat_le {a : Word} (h : wordInBounds a) : a.toNat ≤ 65532 := by
  have := Word.toInt_eq_toNat h.1
  have := h.2
  omega

theorem checkedByteWrite_writes (hi : writesMemory i = true) (h : checkedByteWrite a b s = .done t) :
    Writes i s t := by
  rcases checkedByteWrite_cases a b s with ⟨-, e⟩ | ⟨-, -, e⟩ | ⟨-, ha, e⟩ <;> cases e.symm.trans h
  exact .byte hi (Nat.lt_succ_of_le ha.toNat_le) _ .nothing

theorem memWriteWord_writes (hi : writesMemory i = true) (h : memWriteWord a b s = .done t) : Writes i s t := by
  rcases memWriteWord_cases a b s with ⟨ha, e⟩ | ⟨-, e⟩ <;> cases e.symm.trans h
  exact .word hi (Nat.lt_succ_of_le (Nat.add_le_add_right ha.toNat_le 3)) _ .nothing

/-- A relative jump writes `rip` or nothing (R116). -/
theorem jumpIf_writes {off : Word} (taken : Bool) (hi : transfersControl i = true)
    (h : jumpIf taken off s = .done t) : Writes i s t := by
  cases taken <;> cases h
  · exact .nothing
  · exact .reg _ _ (.inr ⟨hi, rfl⟩) .nothing

theorem callHandler_writes (hi : usesStack i = true) (hc : transfersControl i = true)
    (h : callHandler a s = .done t) : Writes i s t := by
  rcases pushWord_cases (wrap32 (s.ip.toInt - 1)) s (fun t => .done (t.setIp a)) with ⟨hroom, e⟩ | ⟨-, e⟩ <;>
    cases e.symm.trans h
  exact .reg _ _ (.inr ⟨hc, rfl⟩) (.push hi hroom _ .nothing)

theorem retnHandler_writes (hi : usesStack i = true) (hc : transfersControl i = true)
    (h : retnHandler s = .done t) : Writes i s t := by
  simp only [retnHandler] at h
  split at h <;> cases h
  · exact .reg _ _ (.inr ⟨hc, rfl⟩) .nothing
  · exact .reg _ _ (.inr ⟨hc, rfl⟩) (.pop hi .nothing)

theorem pushRegister_writes (hi : usesStack i = true) (h : pushRegister d s = .done t) : Writes i s t := by
  rcases pushWord_cases (s.reg d) s .done with ⟨hroom, e⟩ | ⟨-, e⟩ <;> cases e.symm.trans h
  exact .push hi hroom _ .nothing

theorem popRegister_writes (hi : usesStack i = true) (hd : mayWrite i d) (h : popRegister d s = .done t) :
    Writes i s t := by
  simp only [popRegister] at h
  split at h <;> cases h
  exact .reg _ _ (.inl hd) (.pop hi .nothing)

theorem intHandler_writes {id ip0 : Word} (h : intHandler id ip0 s = .done t) : Writes (.int id) s t := by
  rcases intHandler_cases id ip0 s with ⟨text, -, e⟩ | ⟨_, -, e⟩ <;> rw [e] at h
  · rcases systemCall_cases id text ip0 s with ⟨_, -, e'⟩ | ⟨-, e'⟩ | ⟨-, e'⟩ <;> cases e'.symm.trans h
    exact .reg _ _ (.inl rfl) .nothing
  · cases h

end Operations

/-- A handler that completes has made only the writes that its instruction is allowed. -/
theorem writes_of_handlerOf_done {i : Instr} {ip0 : Word} {s t : State} (h : handlerOf i ip0 s = .done t) :
    Writes i s t := by
  cases i with
  | movDword | xorDword | orDword | andDword | notDword =>
    obtain ⟨d, rfl, e⟩ := dwordForm_done h
    cases e
    exact .reg _ _ (.inl rfl) .nothing
  | movReg | xorReg | orReg | andReg | notReg =>
    obtain ⟨d, r, rfl, e⟩ := regForm_done h
    cases e
    exact .reg _ _ (.inl rfl) .nothing
  | addDword | subDword | mulDword =>
    obtain ⟨d, rfl, e⟩ := dwordForm_done h
    cases e
    exact .reg _ _ (.inl rfl) (.flags ⟨nofun, nofun, nofun, fun _ => ⟨rfl, rfl, rfl⟩⟩ .nothing)
  | addReg | subReg | mulReg =>
    obtain ⟨d, r, rfl, e⟩ := regForm_done h
    cases e
    exact .reg _ _ (.inl rfl) (.flags ⟨nofun, nofun, nofun, fun _ => ⟨rfl, rfl, rfl⟩⟩ .nothing)
  | divDword =>
    obtain ⟨d, rfl, e⟩ := dwordForm_done h
    exact aluDiv_writes (.inl rfl) (.inr rfl) e
  | divReg =>
    obtain ⟨d, r, rfl, e⟩ := regForm_done h
    exact aluDiv_writes (.inl rfl) (.inr rfl) e
  | inc =>
    obtain ⟨d, rfl, e⟩ := unaryForm_done h
    cases e
    exact .reg _ _ (.inl rfl) (.flags ⟨nofun, fun _ => rfl, fun _ => ⟨rfl, rfl, rfl⟩, id⟩ .nothing)
  | dec =>
    obtain ⟨d, rfl, e⟩ := unaryForm_done h
    cases e
    exact .reg _ _ (.inl rfl) (.flags ⟨fun _ => rfl, nofun, fun _ => ⟨rfl, rfl, rfl⟩, id⟩ .nothing)
  | cmpDword =>
    obtain ⟨d, -, e⟩ := dwordForm_done h
    cases e
    exact .flags (compareFlags_allowed rfl _ _) .nothing
  | cmpReg =>
    obtain ⟨d, r, -, e⟩ := regForm_done h
    cases e
    exact .flags (compareFlags_allowed rfl _ _) .nothing
  | label =>
    cases h
    exact .nothing
  | jmp | je | jne | jg | jb => exact jumpIf_writes _ rfl h
  | call => exact callHandler_writes rfl rfl h
  | retn => exact retnHandler_writes rfl rfl h
  | writeByteDword => exact checkedByteWrite_writes rfl h
  | writeByteReg =>
    obtain ⟨_, _, -, e⟩ := regForm_done h
    exact checkedByteWrite_writes rfl e
  | writeWordDword => exact memWriteWord_writes rfl h
  | writeWordReg =>
    obtain ⟨_, _, -, e⟩ := regForm_done h
    exact memWriteWord_writes rfl e
  | readByteDword =>
    obtain ⟨d, rfl, e⟩ := dwordForm_done (op := fun d _ a => loadByte d a) h
    exact loadByte_writes rfl e
  | readByteReg =>
    obtain ⟨d, r, rfl, e⟩ := regForm_done (op := fun d _ a => loadByte d a) h
    exact loadByte_writes rfl e
  | readWordDword =>
    obtain ⟨d, rfl, e⟩ := dwordForm_done (op := fun d _ a => loadWord d a) h
    exact loadWord_writes rfl e
  | readWordReg =>
    obtain ⟨d, r, rfl, e⟩ := regForm_done (op := fun d _ a => loadWord d a) h
    exact loadWord_writes rfl e
  | push =>
    obtain ⟨d, -, e⟩ := unaryForm_done h
    exact pushRegister_writes rfl e
  | pop =>
    obtain ⟨d, rfl, e⟩ := unaryForm_done h
    exact popRegister_writes rfl rfl e
  | halt =>
    cases h
    exact .reg _ _ (.inr ⟨rfl, rfl⟩) .nothing
  | int => exact intHandler_writes h

/-! ## What allowed writes keep -/

namespace Writes

variable {i : Instr} {s t : State}

/-- A register that `i` does not name, and that is not `rip` of a transfer, is kept. -/
theorem reg_eq (h : Writes i s t) {r : Reg} (hr : ¬ mayWrite i r) (hc : ¬(transfersControl i = true ∧ r = .rip)) :
    t.reg r = s.reg r := by
  induction h with
  | nothing => rfl
  | @reg t d v hd _ ih =>
    have hne : r ≠ d := by
      rintro rfl
      exact hd.elim hr hc
    rw [State.reg_setReg, if_neg hne, ih]
  | flags _ _ ih | byte _ _ _ _ ih | word _ _ _ _ ih | push _ _ _ _ ih | pop _ _ ih => exact ih

theorem flags_allowed (h : Writes i s t) : FlagsAllowed i s.flags t.flags := by
  induction h with
  | nothing => exact ⟨fun _ => rfl, fun _ => rfl, fun _ => ⟨rfl, rfl, rfl⟩, id⟩
  | flags hf _ ih =>
    refine ⟨fun h => (hf.overflow h).trans (ih.overflow h), fun h => (hf.underflow h).trans (ih.underflow h),
      fun h => ?_, fun h => hf.exclusive (ih.exclusive h)⟩
    obtain ⟨hg, hl, he⟩ := hf.comparison h
    obtain ⟨ig, il, ie⟩ := ih.comparison h
    exact ⟨hg.trans ig, hl.trans il, he.trans ie⟩
  | reg _ _ _ _ ih | byte _ _ _ _ ih | word _ _ _ _ ih | push _ _ _ _ ih | pop _ _ ih => exact ih

theorem mem_eq (h : Writes i s t) (hi : writesMemory i = false) : t.mem = s.mem := by
  induction h with
  | nothing => rfl
  | byte hw | word hw => cases hi.symm.trans hw
  | reg _ _ _ _ ih | flags _ _ ih | push _ _ _ _ ih | pop _ _ ih => exact ih

theorem stack_eq (h : Writes i s t) (hi : usesStack i = false) : t.stack = s.stack := by
  induction h with
  | nothing => rfl
  | push hw | pop hw => cases hi.symm.trans hw
  | reg _ _ _ _ ih | flags _ _ ih | byte _ _ _ _ ih | word _ _ _ _ ih => exact ih

/-- Allowed writes keep memory in canonical form. -/
theorem mem_wf (h : Writes i s t) (hs : s.mem.wf) : t.mem.wf := by
  induction h with
  | nothing => exact hs
  | byte _ ha _ _ ih => exact Memory.setByte_wf ih ha
  | word _ ha _ _ ih => exact Memory.setWord_wf ih ha
  | reg _ _ _ _ ih | flags _ _ ih | push _ _ _ _ ih | pop _ _ ih => exact ih

/-- Allowed writes keep the stack within its capacity and its slots in canonical form. -/
theorem stack_wf (h : Writes i s t) (hs : s.stack.wf) : t.stack.wf := by
  induction h with
  | nothing => exact hs
  | push _ hroom _ _ ih => exact CallStack.push_wf ih hroom
  | pop _ _ ih => exact CallStack.pop_wf ih
  | reg _ _ _ _ ih | flags _ _ ih | byte _ _ _ _ ih | word _ _ _ _ ih => exact ih

/-- No allowed write reaches the program, the status or the host's responses. -/
theorem sameRun (h : Writes i s t) : SameRun s t := by
  induction h with
  | nothing => exact ⟨rfl, rfl, rfl⟩
  | reg _ _ _ _ ih | flags _ _ ih | byte _ _ _ _ ih | word _ _ _ _ ih | push _ _ _ _ ih | pop _ _ ih => exact ih

end Writes

/-! ## The ends of an instruction -/

/-- The state of an INT at `s` that blocks on the call `c` with the string `text` (R142). -/
def State.blockedAt (s : State) (c : HostCall) (text : List Byte) : State :=
  { s with
    regs := { s.regs with rip := s.reg .rip + 1 }
    status := .blocked { call := c, text := text, arg1 := s.reg .r1, arg2 := s.reg .r2, arg3 := s.reg .r3,
                         ip0 := s.reg .rip } }

/-- What `exec` answers: the allowed writes of a handler that completed, the blocked state of an INT, or a fault that
the table of R147 gives to the instruction. -/
theorem exec_next_cases {i : Instr} {s t : State} (h : exec i s = .next t) :
    (∃ u, Writes i (s.inHandler i.opcode) u ∧ t = u.setIp (u.ip + 1)) ∨
      (∃ c text, i = .int c.id ∧ s.mem.string (s.reg .r1) = .ok text ∧ t = s.blockedAt c text) ∨
      (∃ c info, mayRaise i c = true ∧ t = s.faultedAt c info) := by
  rcases exec_cases i s with ⟨u, hu, e⟩ | ⟨u, hu, e⟩ | ⟨c, info, hu, e⟩ <;> cases e.symm.trans h
  · exact .inl ⟨u, writes_of_handlerOf_done hu, rfl⟩
  · obtain ⟨c, text, rfl, hstring, hblock⟩ := handlerOf_blocked hu
    cases hblock
    exact .inr (.inl ⟨c, text, rfl, hstring, rfl⟩)
  · exact .inr (.inr ⟨c, info, mayRaise_of_handlerOf_raised hu, rfl⟩)

/-! ## The ends of a step in status RUNNING -/

/-- Inside the program there is an opcode Word to decode. -/
theorem decode_drop_ne_noWords {p : List Word} {ip : Word} (h0 : 0 ≤ ip.toInt) (h1 : ip.toInt < p.length) :
    decode (p.drop ip.toNat) ≠ .error .noWords := by
  rw [decode, Ne, decodeWith_eq_noWords, List.drop_eq_nil_iff]
  have := Word.toInt_eq_toNat h0
  omega

/-- What a step in status RUNNING does: it halts at the boundary, takes a fault of the boundary check or of the fetch,
or runs the instruction that the program holds at `ip` (R164, R165). -/
theorem step_running_cases {s : State} (hrun : s.status = .running) :
    ((s.program.length : Int) ≤ (s.reg .rip).toInt ∧ step s = .next s.haltRun) ∨
      (∃ c info, fetch s = .raised c info ∧ step s = .next (s.faultedAt c info)) ∨
      (∃ i rest, 0 ≤ (s.reg .rip).toInt ∧ decode (s.program.drop (s.reg .rip).toNat) = .ok (i, rest) ∧
        step s = exec i s) := by
  rw [step_running hrun]
  rcases fetch_cases s with ⟨hend, e⟩ | ⟨-, -, e⟩ | ⟨h0, h1, ⟨i, rest, hd, e⟩ | ⟨d, hd, e⟩⟩ <;> rw [e]
  · exact .inl ⟨hend, rfl⟩
  · exact .inr (.inl ⟨_, _, rfl, congrArg Host.Outcome.next (s.takeFault_self _ _)⟩)
  · exact .inr (.inr ⟨i, rest, h0, hd, rfl⟩)
  · cases d with
    | noWords => exact absurd hd (decode_drop_ne_noWords h0 h1)
    | illegalOpcode w => exact .inr (.inl ⟨_, _, rfl, congrArg Host.Outcome.next (s.takeFault_self _ _)⟩)
    | truncated n => exact .inr (.inl ⟨_, _, rfl, congrArg Host.Outcome.next (s.takeFault_self _ _)⟩)

end Sys2Proof.Machine

/-! The ends of a response step, the invariant of every step and every run, and what steps never do. Each proof goes
over the ends of the step: `step_running_cases` and `exec_next_cases`, or `step_blocked_next`. -/

namespace Sys2Proof.Machine

open Sys2Proof.Rules

/-! ## The ends of a response step -/

/-- `wrap32(w + 1)` is the Word after `w` (R7). -/
theorem wrap32_toInt_add_one (w : Word) : wrap32 (w.toInt + 1) = w + 1 := by
  rw [wrap32, BitVec.ofInt_add, BitVec.ofInt_toInt]
  rfl

/-- Fault entry with the first response taken is the fault of a response step. -/
theorem takeFault_eq_respondFault {s : State} {req : Request} {c : FaultCause} {info : Word} {r : Response}
    {rest : List Response} (h : s.hostAnswers = r :: rest) :
    ({ s with hostAnswers := rest }.takeFault c info req.ip0) = respondFault s req c info := by
  simp only [respondFault, h, List.tail_cons]
  rfl

/-- What a step in status BLOCKED answers: the same state while no response waits; a fault; or a resumed run, in which
only a line read may have changed memory (R144, R145). -/
theorem step_blocked_next {s t : State} {req : Request} (hblocked : s.status = .blocked req)
    (h : step s = .next t) :
    (s.hostAnswers = [] ∧ t = s) ∨
      (∃ c info, (c = .syscallIo ∨ c = .memoryBounds) ∧ t = respondFault s req c info) ∨
      (t.status = .running ∧ t.flags = s.flags ∧ t.stack = s.stack ∧ t.program = s.program ∧
        (t.mem = s.mem ∨ ∃ bs rest, req.call = .readLine ∧ s.hostAnswers = .line bs :: rest ∧
          lineFits (s.reg .r2) bs ∧ t.mem = s.mem.setLine (s.reg .r2).toNat bs)) := by
  rcases step_blocked_cases hblocked with ⟨hnone, e⟩ | ⟨r, rest, hr, e⟩
  · exact .inl ⟨hnone, Host.Outcome.next.inj (h.symm.trans e)⟩
  · rw [e] at h
    rcases applyResponse_cases req r { s with hostAnswers := rest } with
      ⟨-, e⟩ | ⟨bs, hc, rfl, hfits, e⟩ | ⟨_, -, -, -, e⟩ | ⟨w, -, -, e⟩ | ⟨-, -, e⟩ | ⟨-, e⟩ <;> rw [e] at h <;>
      cases h
    · exact .inr (.inl ⟨_, _, .inl rfl, takeFault_eq_respondFault hr⟩)
    · exact .inr (.inr ⟨rfl, rfl, rfl, rfl, .inr ⟨bs, rest, hc, hr, hfits, rfl⟩⟩)
    · exact .inr (.inl ⟨_, _, .inr rfl, takeFault_eq_respondFault hr⟩)
    · exact .inr (.inr ⟨rfl, rfl, rfl, rfl, .inl rfl⟩)
    · exact .inr (.inr ⟨rfl, rfl, rfl, rfl, .inl rfl⟩)

/-- A step from an ended run answers the same state (R34, log entry 4). -/
theorem step_of_ended {s : State} (h : s.ended = true) : step s = .next s := by
  obtain ⟨regs, flags, mem, stack, program, status, answers⟩ := s
  cases status with
  | running | blocked => cases h
  | halted | faulted => rfl

/-- The six ends of a step from `s` to `t`. -/
inductive StepEnd (s t : State) : Prop where
  /-- The normal end of the run (R164). -/
  | boundary (hrun : s.status = .running) (hend : (s.program.length : Int) ≤ (s.reg .rip).toInt) (ht : t = s.haltRun)
  /-- A fault of the boundary check or of the decode (R64, R164). -/
  | fetchFault (hrun : s.status = .running) {c : FaultCause} {info : Word} (hfetch : fetch s = .raised c info)
      (ht : t = s.faultedAt c info)
  /-- The instruction that the program holds at `ip` (R165). -/
  | instr (hrun : s.status = .running) {i : Instr} {rest : List Word} (h0 : 0 ≤ (s.reg .rip).toInt)
      (hdecode : decode (s.program.drop (s.reg .rip).toNat) = .ok (i, rest)) (hexec : exec i s = .next t)
  /-- The run has ended, or it waits for a response (log entry 4). -/
  | stays (hne : s.status ≠ .running) (ht : t = s)
  /-- A response that fails, or a line that does not fit (R144). -/
  | responseFault {req : Request} (hblocked : s.status = .blocked req) {c : FaultCause} {info : Word}
      (hc : c = .syscallIo ∨ c = .memoryBounds) (ht : t = respondFault s req c info)
  /-- A response that succeeds (R144). -/
  | resumed {req : Request} (hblocked : s.status = .blocked req) (hrun : t.status = .running)
      (hflags : t.flags = s.flags) (hstack : t.stack = s.stack) (hprogram : t.program = s.program)
      (hmem : t.mem = s.mem ∨ ∃ bs rest, req.call = .readLine ∧ s.hostAnswers = .line bs :: rest ∧
        lineFits (s.reg .r2) bs ∧ t.mem = s.mem.setLine (s.reg .r2).toNat bs)

theorem stepEnd_of_step {s t : State} (h : step s = .next t) : StepEnd s t := by
  cases hstatus : s.status with
  | running =>
    rcases step_running_cases hstatus with ⟨hend, e⟩ | ⟨c, info, hfetch, e⟩ | ⟨i, rest, h0, hd, e⟩ <;> rw [e] at h
    · exact .boundary hstatus hend (Host.Outcome.next.inj h).symm
    · exact .fetchFault hstatus hfetch (Host.Outcome.next.inj h).symm
    · exact .instr hstatus h0 hd h
  | blocked req =>
    rcases step_blocked_next hstatus h with ⟨-, ht⟩ | ⟨c, info, hc, ht⟩ | ⟨hrun, hflags, hstack, hprogram, hmem⟩
    · exact .stays (by rw [hstatus]; nofun) ht
    · exact .responseFault hstatus hc ht
    · exact .resumed hstatus hrun hflags hstack hprogram hmem
  | halted | faulted =>
    rw [step_of_ended (by rw [State.ended, hstatus])] at h
    exact .stays (by rw [hstatus]; nofun) (Host.Outcome.next.inj h).symm

/-! ## The invariant -/

/-- The invariant in a state that is RUNNING asks nothing of the status. -/
theorem inv_of_running {s : State} (hrun : s.status = .running) (hmem : s.mem.wf) (hstack : s.stack.wf)
    (hlen : s.program.length ≤ Config.maxPlen) (hflags : s.flags.exclusive) : Inv s :=
  ⟨hmem, hstack, hlen, hflags, by rw [StatusConsistent, hrun]; trivial⟩

/-- An instruction that the program holds at `ip` keeps the invariant. -/
theorem exec_keeps_inv {i : Instr} {rest : List Word} {s t : State} (hs : Inv s) (hrun : s.status = .running)
    (h0 : 0 ≤ (s.reg .rip).toInt) (hdecode : decode (s.program.drop (s.reg .rip).toNat) = .ok (i, rest))
    (h : exec i s = .next t) : Inv t := by
  obtain ⟨hmem, hstack, hlen, hflags, -⟩ := hs
  rcases exec_next_cases h with ⟨u, hu, rfl⟩ | ⟨c, text, rfl, hstring, rfl⟩ | ⟨c, info, -, rfl⟩
  · obtain ⟨hprogram, hstatus, -⟩ := hu.sameRun
    exact inv_of_running (hstatus.trans hrun) (hu.mem_wf hmem) (hu.stack_wf hstack)
      (by rw [State.program_setIp, hprogram]; exact hlen) (hu.flags_allowed.exclusive hflags)
  · exact ⟨hmem, hstack, hlen, hflags, rfl, rfl, rfl, rfl, hstring, h0, rest, hdecode⟩
  · exact ⟨hmem, hstack, hlen, hflags, rfl⟩

/-- A line that fits at an address stays within memory (R50). -/
theorem Memory.setLine_wf_of_fits {m : Memory} {a : Word} {bs : List Byte} (hm : m.wf) (h : lineFits a bs) :
    (m.setLine a.toNat bs).wf := by
  obtain ⟨h0, hfits⟩ := h
  have ha := Word.toInt_eq_toNat h0
  exact Memory.setLine_wf hm (by rw [memSize_eq]; omega)

/-- Settles O4: over the ends of a step. -/
theorem stepKeepsInvariant : Obligations.StepKeepsInvariant := by
  intro s t hs h
  obtain ⟨hmem, hstack, hlen, hflags, -⟩ := id hs
  cases stepEnd_of_step h with
  | boundary _ hend ht =>
    subst ht
    exact ⟨hmem, hstack, hlen, hflags, hend⟩
  | fetchFault _ _ ht | responseFault _ _ ht =>
    subst ht
    exact ⟨hmem, hstack, hlen, hflags, rfl⟩
  | instr hrun h0 hd hexec => exact exec_keeps_inv hs hrun h0 hd hexec
  | stays _ ht =>
    subst ht
    exact hs
  | resumed _ hrun ef ek ep em =>
    refine inv_of_running hrun ?_ (by rw [ek]; exact hstack) (by rw [ep]; exact hlen) (by rw [ef]; exact hflags)
    rcases em with e | ⟨bs, rest, -, -, hfits, e⟩ <;> rw [e]
    · exact hmem
    · exact Memory.setLine_wf_of_fits hmem hfits

/-- A loaded program is of a legal length, and the state is the reset state with that program (R28, R169). -/
theorem load_eq_next {p : List Word} {t : State} (h : State.load p = .next t) :
    p.length ≤ Config.maxPlen ∧ t = { State.reset with program := p } := by
  rw [State.load] at h
  split at h <;> cases h
  exact ⟨by assumption, rfl⟩

/-- The invariant of the reset state with any program of a legal length and any waiting responses. -/
theorem inv_reset {p : List Word} (hp : p.length ≤ Config.maxPlen) (r : List Response) :
    Inv { State.reset with program := p, hostAnswers := r } :=
  inv_of_running rfl Memory.wf_nil ⟨Nat.zero_le _, Cells.wf_nil _ _⟩ hp ⟨rfl, rfl, rfl⟩

/-- Settles O3: reset is the empty program with no response waiting. -/
theorem resetMeetsInvariant : Obligations.ResetMeetsInvariant := by
  refine ⟨inv_reset (p := []) (Nat.zero_le _) [], fun p t r h => ?_⟩
  obtain ⟨hp, rfl⟩ := load_eq_next h
  exact inv_reset hp r

/-- A property that every step keeps holds at the end of every run that begins with it. -/
theorem run_keeps {P : State → Prop} (hstep : ∀ s t, P s → step s = .next t → P t) (k : Nat) :
    ∀ {s t : State}, P s → Host.Core.run Sys2Proof.core k s = .next t → P t := by
  induction k with
  | zero =>
    intro s t hs h
    cases h
    exact hs
  | succ k ih =>
    intro s t hs h
    cases e : step s with
    | next u =>
      rw [run_next k e] at h
      exact ih (hstep s u hs e) h
    | fault r =>
      have e' : Sys2Proof.core.step s = .fault r := e
      simp only [Host.Core.run, e'] at h
      cases h
    | refused r =>
      have e' : Sys2Proof.core.step s = .refused r := e
      simp only [Host.Core.run, e'] at h
      cases h

/-- Settles O5: the invariant holds at the load and every step keeps it. -/
theorem everyRunKeepsInvariant : Obligations.EveryRunKeepsInvariant :=
  fun p r k s _ hload hrun => run_keeps stepKeepsInvariant k (resetMeetsInvariant.2 p s r hload) hrun

/-- A state that steps to itself is where every run from it ends. -/
theorem run_of_step_self {s : State} (h : step s = .next s) (k : Nat) :
    Host.Core.run Sys2Proof.core k s = .next s := by
  induction k with
  | zero => rfl
  | succ k ih => rw [run_next k h, ih]

/-- Settles O15: an ended run steps to itself. -/
theorem endedRunStaysAsItIs : Obligations.EndedRunStaysAsItIs :=
  fun _ k hended => run_of_step_self (step_of_ended hended) k

/-- Settles O50: a blocked engine with no response steps to itself. -/
theorem unansweredRequestBlocksForever : Obligations.UnansweredRequestBlocksForever := by
  intro s req k hblocked hnone
  rcases step_blocked_cases hblocked with ⟨-, e⟩ | ⟨r, rest, hr, -⟩
  · exact run_of_step_self e k
  · cases hnone.symm.trans hr

end Sys2Proof.Machine

/-! Noninterference. A relation between states that no read of a handler tells apart and that every write keeps
(`Congruence`) is kept by every instruction. Three relations are such: states that differ in their flags, in stack
slots that are not live, and in a program of the same length. -/

namespace Sys2Proof.Machine

open Sys2Proof.Rules

/-! ## Relations that instructions keep -/

/-- Related states read alike (registers, memory, the program's length, the depth and top of the stack), and the same
write to both keeps them related. The flags may differ; a write of flags may depend on the flags before it. -/
structure Congruence (R : State → State → Prop) : Prop where
  reg : ∀ {s s'}, R s s' → ∀ r, s'.reg r = s.reg r
  mem : ∀ {s s'}, R s s' → s'.mem = s.mem
  plen : ∀ {s s'}, R s s' → s'.plen = s.plen
  sp : ∀ {s s'}, R s s' → s'.stack.sp = s.stack.sp
  top : ∀ {s s'}, R s s' → 0 < s.stack.sp → s'.stack.top = s.stack.top
  setReg : ∀ {s s'}, R s s' → ∀ d v, R (s.setReg d v) (s'.setReg d v)
  setFlags : ∀ {s s'}, R s s' → ∀ g : Flags → Flags, R (s.setFlags (g s.flags)) (s'.setFlags (g s'.flags))
  setMem : ∀ {s s'}, R s s' → ∀ m, R { s with mem := m } { s' with mem := m }
  push : ∀ {s s'}, R s s' → ∀ v, R { s with stack := s.stack.push v } { s' with stack := s'.stack.push v }
  pop : ∀ {s s'}, R s s' → R { s with stack := s.stack.pop } { s' with stack := s'.stack.pop }
  setStatus : ∀ {s s'}, R s s' → ∀ q, R { s with status := q } { s' with status := q }

/-- Two handlers end alike, in related states. -/
inductive HandlerResult.Related (R : State → State → Prop) : HandlerResult → HandlerResult → Prop where
  | done {t t' : State} (h : R t t') : Related R (.done t) (.done t')
  | blocked {t t' : State} (h : R t t') : Related R (.blocked t) (.blocked t')
  | raised (c : FaultCause) (info : Word) : Related R (.raised c info) (.raised c info)

open HandlerResult (Related)

section Related

variable {R : State → State → Prop} {s s' : State} {d : Reg} {a b : Word}

theorem withReg_related (w : Word) {k k' : Reg → HandlerResult} (h : ∀ r, Related R (k r) (k' r)) :
    Related R (withReg w k) (withReg w k') := by
  simp only [withReg]
  cases checkReg w with
  | none => exact .raised _ _
  | some r => exact h r

theorem dwordForm_related (hR : Congruence R) (h : R s s') {op : AluOp}
    (hop : ∀ d a b, Related R (op d a b s) (op d a b s')) (rd imm : Word) :
    Related R (dwordForm rd imm op s) (dwordForm rd imm op s') :=
  withReg_related rd fun d => by rw [hR.reg h]; exact hop d _ _

theorem regForm_related (hR : Congruence R) (h : R s s') {op : AluOp}
    (hop : ∀ d a b, Related R (op d a b s) (op d a b s')) (rd rs : Word) :
    Related R (regForm rd rs op s) (regForm rd rs op s') :=
  withReg_related rd fun d => withReg_related rs fun r => by rw [hR.reg h, hR.reg h]; exact hop d _ _

theorem unaryForm_related {op : Reg → State → HandlerResult} (hop : ∀ d, Related R (op d s) (op d s')) (rd : Word) :
    Related R (unaryForm rd op s) (unaryForm rd op s') :=
  withReg_related rd hop

theorem aluDiv_related (hR : Congruence R) (h : R s s') : Related R (aluDiv d a b s) (aluDiv d a b s') := by
  simp only [aluDiv]
  split
  · exact .raised _ _
  · exact .done (hR.setReg (hR.setReg h _ _) _ _)

theorem loadByte_related (hR : Congruence R) (h : R s s') : Related R (loadByte d a s) (loadByte d a s') := by
  simp only [loadByte, memReadByte, hR.mem h]
  split
  · exact .done (hR.setReg h _ _)
  · exact .raised _ _

theorem loadWord_related (hR : Congruence R) (h : R s s') : Related R (loadWord d a s) (loadWord d a s') := by
  simp only [loadWord, memReadWord, hR.mem h]
  split
  · exact .done (hR.setReg h _ _)
  · exact .raised _ _

theorem checkedByteWrite_related (hR : Congruence R) (h : R s s') :
    Related R (checkedByteWrite a b s) (checkedByteWrite a b s') := by
  simp only [checkedByteWrite, memWriteByte, hR.mem h]
  split
  · exact .raised _ _
  · split
    · exact .done (hR.setMem h _)
    · exact .raised _ _

theorem memWriteWord_related (hR : Congruence R) (h : R s s') :
    Related R (memWriteWord a b s) (memWriteWord a b s') := by
  simp only [memWriteWord, hR.mem h]
  split
  · exact .done (hR.setMem h _)
  · exact .raised _ _

theorem pushWord_related (hR : Congruence R) (h : R s s') {k : State → HandlerResult}
    (hk : ∀ {t t'}, R t t' → Related R (k t) (k t')) : Related R (pushWord a s k) (pushWord a s' k) := by
  simp only [pushWord, hR.sp h]
  split
  · exact hk (hR.push h a)
  · exact .raised _ _

theorem setIp_related (hR : Congruence R) (h : R s s') (v : Word) : R (s.setIp v) (s'.setIp v) := hR.setReg h _ _

theorem jumpIf_related (hR : Congruence R) (h : R s s') {taken taken' : Bool} (ht : taken' = taken) (off : Word) :
    Related R (jumpIf taken off s) (jumpIf taken' off s') := by
  subst ht
  simp only [jumpIf, hR.reg h]
  split
  · exact .done (setIp_related hR h _)
  · exact .done h

theorem callHandler_related (hR : Congruence R) (h : R s s') :
    Related R (callHandler a s) (callHandler a s') := by
  simp only [callHandler, hR.reg h]
  exact pushWord_related hR h fun ht => .done (setIp_related hR ht _)

theorem endProgram_related (hR : Congruence R) (h : R s s') : R (endProgram s) (endProgram s') := by
  simp only [endProgram, hR.plen h]
  exact setIp_related hR h _

theorem retnHandler_related (hR : Congruence R) (h : R s s') : Related R (retnHandler s) (retnHandler s') := by
  simp only [retnHandler, hR.sp h]
  split
  · exact .done (endProgram_related hR h)
  · next hpos =>
    rw [hR.top h (Nat.pos_of_ne_zero hpos)]
    exact .done (setIp_related hR (hR.pop h) _)

theorem pushRegister_related (hR : Congruence R) (h : R s s') :
    Related R (pushRegister d s) (pushRegister d s') := by
  simp only [pushRegister, hR.reg h]
  exact pushWord_related hR h .done

theorem popRegister_related (hR : Congruence R) (h : R s s') : Related R (popRegister d s) (popRegister d s') := by
  simp only [popRegister, hR.sp h]
  split
  · exact .raised _ _
  · next hpos =>
    rw [hR.top h (Nat.pos_of_ne_zero hpos)]
    exact .done (hR.setReg (hR.pop h) _ _)

theorem intHandler_related (hR : Congruence R) (h : R s s') (id ip0 : Word) :
    Related R (intHandler id ip0 s) (intHandler id ip0 s') := by
  simp only [intHandler, hR.reg h, hR.mem h]
  split
  · exact .raised _ _
  · simp only [systemCall, blockOn, hR.reg h]
    split
    iterate 5 exact .blocked (hR.setStatus h _)
    · exact .done (hR.setReg h _ _)
    · exact .raised _ _

end Related

/-- Handlers keep a congruence whose states agree on the flag that the instruction reads (R25). -/
theorem handlerOf_related {R : State → State → Prop} (hR : Congruence R) {s s' : State} (h : R s s') {i : Instr}
    (hread : agreeOnRead i s.flags s'.flags) (ip0 : Word) : Related R (handlerOf i ip0 s) (handlerOf i ip0 s') := by
  cases i with
  | movDword | xorDword | orDword | andDword | notDword =>
    refine dwordForm_related hR h (fun _ _ _ => ?_) _ _
    exact .done (hR.setReg h _ _)
  | movReg | xorReg | orReg | andReg | notReg =>
    refine regForm_related hR h (fun _ _ _ => ?_) _ _
    exact .done (hR.setReg h _ _)
  | addDword | subDword | mulDword =>
    refine dwordForm_related hR h (fun _ _ _ => ?_) _ _
    exact .done (hR.setReg (hR.setFlags h (Function.const _ _)) _ _)
  | addReg | subReg | mulReg =>
    refine regForm_related hR h (fun _ _ _ => ?_) _ _
    exact .done (hR.setReg (hR.setFlags h (Function.const _ _)) _ _)
  | divDword => exact dwordForm_related (op := aluDiv) hR h (fun _ _ _ => aluDiv_related hR h) _ _
  | divReg => exact regForm_related (op := aluDiv) hR h (fun _ _ _ => aluDiv_related hR h) _ _
  | inc =>
    refine unaryForm_related (fun d => ?_) _
    simp only [incRegister, hR.reg h]
    exact .done (hR.setReg (hR.setFlags h (incFlags _)) _ _)
  | dec =>
    refine unaryForm_related (fun d => ?_) _
    simp only [decRegister, hR.reg h]
    exact .done (hR.setReg (hR.setFlags h (decFlags _)) _ _)
  | cmpDword =>
    refine dwordForm_related hR h (fun _ a b => ?_) _ _
    exact .done (hR.setFlags h (cmpDwordFlags a b))
  | cmpReg =>
    refine regForm_related hR h (fun _ a b => ?_) _ _
    exact .done (hR.setFlags h (cmpRegFlags a b))
  | label => exact .done h
  | jmp => exact jumpIf_related hR h rfl _
  | je | jg | jb => exact jumpIf_related hR h hread.symm _
  | jne => exact jumpIf_related hR h (congrArg (!·) hread.symm) _
  | call => exact callHandler_related hR h
  | retn => exact retnHandler_related hR h
  | writeByteDword => exact checkedByteWrite_related hR h
  | writeByteReg =>
    exact regForm_related (op := fun _ a v => checkedByteWrite a v) hR h
      (fun _ _ _ => checkedByteWrite_related hR h) _ _
  | writeWordDword => exact memWriteWord_related hR h
  | writeWordReg =>
    exact regForm_related (op := fun _ a v => memWriteWord a v) hR h (fun _ _ _ => memWriteWord_related hR h) _ _
  | readByteDword =>
    exact dwordForm_related (op := fun d _ a => loadByte d a) hR h (fun _ _ _ => loadByte_related hR h) _ _
  | readByteReg =>
    exact regForm_related (op := fun d _ a => loadByte d a) hR h (fun _ _ _ => loadByte_related hR h) _ _
  | readWordDword => exact dwordForm_related (op := loadWordAt) hR h (fun _ _ _ => loadWord_related hR h) _ _
  | readWordReg => exact regForm_related (op := loadWordAt) hR h (fun _ _ _ => loadWord_related hR h) _ _
  | push => exact unaryForm_related (op := pushRegister) (fun _ => pushRegister_related hR h) _
  | pop => exact unaryForm_related (op := popRegister) (fun _ => popRegister_related hR h) _
  | halt => exact .done (endProgram_related hR h)
  | int => exact intHandler_related hR h _ _

theorem takeFault_related {R : State → State → Prop} (hR : Congruence R) {s s' : State} (h : R s s')
    (c : FaultCause) (info ip0 : Word) : R (s.takeFault c info ip0) (s'.takeFault c info ip0) :=
  hR.setStatus (setIp_related hR h ip0) _

/-- Instructions keep a congruence whose states agree on the flag that the instruction reads. -/
theorem exec_related {R : State → State → Prop} (hR : Congruence R) {s s' t : State} (h : R s s') {i : Instr}
    (hread : agreeOnRead i s.flags s'.flags) (hexec : exec i s = .next t) :
    ∃ t', exec i s' = .next t' ∧ R t t' := by
  have hip : s'.ip = s.ip := hR.reg h .rip
  have hin : R (s.inHandler i.opcode) (s'.inHandler i.opcode) := by
    rw [State.inHandler, State.inHandler, hip]
    exact setIp_related hR h _
  have hrel := handlerOf_related hR hin (i := i) hread s.ip
  rcases exec_cases i s with ⟨u, hu, e⟩ | ⟨u, hu, e⟩ | ⟨c, info, hu, e⟩ <;> rw [hu] at hrel <;>
    cases e.symm.trans hexec
  · generalize hr : handlerOf i s.ip (s'.inHandler i.opcode) = r at hrel
    cases hrel with
    | @done _ u' hrel =>
      have hip' : u'.ip = u.ip := hR.reg hrel .rip
      refine ⟨u'.setIp (u'.ip + 1), ?_, ?_⟩
      · rw [exec_eq, hip]
        exact runHandler_done hr
      · rw [hip']
        exact setIp_related hR hrel _
  · generalize hr : handlerOf i s.ip (s'.inHandler i.opcode) = r at hrel
    cases hrel with
    | @blocked _ u' hrel =>
      refine ⟨u', ?_, hrel⟩
      rw [exec_eq, hip]
      exact runHandler_blocked hr
  · generalize hr : handlerOf i s.ip (s'.inHandler i.opcode) = r at hrel
    cases hrel with
    | raised =>
      refine ⟨s'.faultedAt c info, ?_, ?_⟩
      · rw [exec_eq, hip]
        exact runHandler_raised hr
      · rw [← State.takeFault_self, ← State.takeFault_self, hip]
        exact takeFault_related hR h _ _ _

/-! ## The flags -/

/-- `s'` is `s` but for the flags. -/
def DifferInFlags (s s' : State) : Prop := s' = s.setFlags s'.flags

theorem congruence_differInFlags : Congruence DifferInFlags := by
  constructor <;> intro s s' h <;> rw [h] <;> intros <;> rfl

/-- Settles O53: states that differ in their flags alone are a congruence. -/
theorem flagsReadOnlyByConditionalJumps : Obligations.FlagsReadOnlyByConditionalJumps := by
  intro i s t f g hread hexec
  have h : DifferInFlags { s with flags := f } { s with flags := g } := rfl
  obtain ⟨u, hu, hrel⟩ := exec_related congruence_differInFlags h hread hexec
  refine ⟨u, hu, ?_⟩
  rw [hrel]
  rfl

/-! ## The program -/

/-- `s'` is `s` but for its program, `p`, which is of the same length. -/
def SameButProgram (p : List Word) (s s' : State) : Prop :=
  p.length = s.program.length ∧ s' = { s with program := p }

theorem congruence_sameButProgram (p : List Word) : Congruence (SameButProgram p) := by
  constructor
  case plen =>
    rintro s _ ⟨hlen, rfl⟩
    exact hlen
  case reg | mem | sp | top =>
    rintro s _ ⟨hlen, rfl⟩
    intros
    rfl
  all_goals
    rintro s _ ⟨hlen, rfl⟩
    intros
    exact ⟨hlen, rfl⟩

theorem agreeOnRead_self (i : Instr) (f : Flags) : agreeOnRead i f f := by
  cases i with
  | je | jne | jg | jb => rfl
  | _ => trivial

/-- Settles O60: states that differ in programs of the same length are a congruence. -/
theorem execSeesOnlyTheProgramLength : Obligations.ExecSeesOnlyTheProgramLength := by
  intro i s t p hlen hexec
  have h : SameButProgram p s { s with program := p } := ⟨hlen, rfl⟩
  obtain ⟨u, hu, -, rfl⟩ := exec_related (congruence_sameButProgram p) h (agreeOnRead_self i s.flags) hexec
  exact hu

/-! ## Stack slots that are not live -/

theorem sameButStale_push {s s' : State} (h : SameButStale s s') (v : Word) :
    SameButStale { s with stack := s.stack.push v } { s' with stack := s'.stack.push v } := by
  obtain ⟨hr, hf, hm, hp, hq, ha, hsp, hslot⟩ := h
  refine ⟨hr, hf, hm, hp, hq, ha, congrArg (· + 1) hsp, fun n h1 hn => ?_⟩
  rw [CallStack.slot_push, CallStack.slot_push, hsp]
  split
  · rfl
  · next hne =>
    rw [CallStack.sp_push] at hn
    exact hslot n h1 (by omega)

theorem congruence_sameButStale : Congruence SameButStale where
  reg := by
    rintro s s' ⟨hr, -⟩ r
    rw [State.reg, hr, State.reg]
  mem := fun ⟨_, _, hm, _⟩ => hm
  plen := by
    rintro s s' ⟨-, -, -, hp, -⟩
    rw [State.plen, hp]
  sp := fun ⟨_, _, _, _, _, _, hsp, _⟩ => hsp
  top := by
    rintro s s' ⟨-, -, -, -, -, -, hsp, hslot⟩ hpos
    rw [CallStack.top, hsp, hslot _ hpos le_rfl, CallStack.top]
  setReg := fun ⟨hr, hf, hm, hp, hq, ha, hk⟩ d v => ⟨congrArg (·.set d v) hr, hf, hm, hp, hq, ha, hk⟩
  setFlags := fun ⟨hr, hf, hm, hp, hq, ha, hk⟩ g => ⟨hr, congrArg g hf, hm, hp, hq, ha, hk⟩
  setMem := fun ⟨hr, hf, _, hp, hq, ha, hk⟩ _ => ⟨hr, hf, rfl, hp, hq, ha, hk⟩
  push := sameButStale_push
  pop := by
    rintro s s' ⟨hr, hf, hm, hp, hq, ha, hsp, hslot⟩
    refine ⟨hr, hf, hm, hp, hq, ha, congrArg (· - 1) hsp, fun n h1 hn => hslot n h1 ?_⟩
    exact hn.trans (Nat.sub_le _ _)
  setStatus := fun ⟨hr, hf, hm, hp, _, ha, hk⟩ _ => ⟨hr, hf, hm, hp, rfl, ha, hk⟩

/-- The fetch sees the program and `ip` alone. -/
theorem fetch_congr {s s' : State} (hp : s'.program = s.program) (hip : s'.ip = s.ip) : fetch s' = fetch s := by
  simp only [fetch, fetchWith, State.plen, hp, hip]

/-- The host sees live slots only. -/
theorem hostView_of_sameButStale {s s' : State} (h : SameButStale s s') : s'.hostView = s.hostView := by
  obtain ⟨hr, hf, hm, -, hq, -, hsp, hslot⟩ := h
  have hlive : s'.stack.live = s.stack.live := by
    rw [CallStack.live, CallStack.live, hsp]
    exact List.map_congr_left fun n hn => hslot (n + 1) (Nat.succ_pos n) (List.mem_range.mp hn)
  simp only [State.hostView, State.viewWith, hq, hr, hf, hm, hsp, hlive]

/-- Responses keep every congruence. -/
theorem applyResponse_related {R : State → State → Prop} (hR : Congruence R) {s s' t : State} (h : R s s')
    {req : Request} {r : Response} (happly : applyResponse req r s = .next t) :
    ∃ t', applyResponse req r s' = .next t' ∧ R t t' := by
  have hresume : ∀ {u u' : State}, R u u' → R u.resume u'.resume := fun {u u'} hu => by
    have hip : u'.ip = u.ip := hR.reg hu .rip
    rw [State.resume, State.resume, hip]
    exact hR.setStatus (setIp_related hR hu _) _
  rcases applyResponse_cases req r s with
    ⟨rfl, e⟩ | ⟨bs, hc, rfl, hfits, e⟩ | ⟨bs, hc, rfl, hfits, e⟩ | ⟨w, hc, rfl, e⟩ | ⟨hc, rfl, e⟩ | ⟨-, e⟩ <;>
    cases e.symm.trans happly
  · exact ⟨_, applyResponse_fail req s', takeFault_related hR h _ _ _⟩
  · refine ⟨_, by rw [applyResponse_line hc, hR.reg h, if_pos hfits], hresume (hR.setReg ?_ _ _)⟩
    rw [hR.mem h]
    exact hR.setMem h _
  · exact ⟨_, by rw [applyResponse_line hc, hR.reg h, if_neg hfits], takeFault_related hR h _ _ _⟩
  · exact ⟨_, applyResponse_word hc, hresume (hR.setReg h _ _)⟩
  · exact ⟨_, applyResponse_done hc, hresume h⟩

/-- A step keeps two states alike but for slots that are not live. -/
theorem step_sameButStale {s s' t : State} (h : SameButStale s s') (hstep : step s = .next t) :
    ∃ t', step s' = .next t' ∧ SameButStale t t' := by
  have hR := congruence_sameButStale
  have hip : s'.ip = s.ip := hR.reg h .rip
  obtain ⟨hr, hf, hm, hp, hq, ha, hk⟩ := id h
  cases hstatus : s.status with
  | running =>
    rw [step_running hstatus] at hstep
    rw [step_running (hq.trans hstatus), fetch_congr hp hip]
    cases e : fetch s with
    | ended =>
      rw [e] at hstep
      cases hstep
      exact ⟨_, rfl, hR.setStatus h _⟩
    | raised c info =>
      rw [e] at hstep
      cases hstep
      exact ⟨_, rfl, by rw [hip]; exact takeFault_related hR h _ _ _⟩
    | instr i =>
      rw [e] at hstep
      exact exec_related hR h (by rw [hf]; exact agreeOnRead_self i s.flags) hstep
  | blocked req =>
    rcases step_blocked_cases hstatus with ⟨hnone, e⟩ | ⟨r, rest, hr', e⟩
    · cases e.symm.trans hstep
      rcases step_blocked_cases (hq.trans hstatus) with ⟨-, e'⟩ | ⟨r, rest, hr', -⟩
      · exact ⟨s', e', h⟩
      · cases (ha.trans hnone).symm.trans hr'
    · rcases step_blocked_cases (hq.trans hstatus) with ⟨hnone, -⟩ | ⟨r', rest', hr'', e'⟩
      · cases (ha.trans hr').symm.trans hnone
      · cases (ha.trans hr').symm.trans hr''
        have htaken : SameButStale { s with hostAnswers := rest } { s' with hostAnswers := rest } :=
          ⟨hr, hf, hm, hp, hq, rfl, hk⟩
        rw [e']
        exact applyResponse_related hR htaken (e.symm.trans hstep)
  | halted | faulted =>
    rw [step_of_ended (by rw [State.ended, hstatus])] at hstep
    cases hstep
    exact ⟨s', step_of_ended (by rw [State.ended, hq, hstatus]), h⟩

/-- Settles O54: a step keeps the two states alike, and the host's view of them is equal. -/
theorem staleStackSlotsAreUnobservable : Obligations.StaleStackSlotsAreUnobservable := by
  intro s s' t h hstep
  obtain ⟨t', hstep', ht⟩ := step_sameButStale h hstep
  exact ⟨t', hstep', ht, hostView_of_sameButStale ht⟩

end Sys2Proof.Machine

/-! What a step does and what it never does: the boundary and the fetch under any opcode map, the statuses it can end
in, faults, and the frame of every instruction (`Writes`) carried to `exec` and to `step`. -/

namespace Sys2Proof.Machine

open Sys2Proof.Rules

/-! ## The fetch -/

/-- `ip` is inside the program when some Word stands there. -/
theorem toInt_lt_of_drop_eq_cons {p : List Word} {ip w : Word} {ws : List Word} (h0 : 0 ≤ ip.toInt)
    (h : p.drop ip.toNat = w :: ws) : ip.toInt < p.length := by
  have hlt : ip.toNat < p.length := by
    by_contra hge
    rw [List.drop_eq_nil_of_le (Nat.le_of_not_lt hge)] at h
    cases h
  rw [Word.toInt_eq_toNat h0]
  exact_mod_cast hlt

/-- The fetch finds the instruction that the Words from `ip` on decode to. -/
theorem fetchWith_of_decodeWith {map : Opcode → Word} {s : State} {i : Instr} {rest : List Word}
    (h0 : 0 ≤ s.ip.toInt) (h1 : s.ip.toInt < (s.plen : Int))
    (h : decodeWith map (s.program.drop s.ip.toNat) = .ok (i, rest)) : fetchWith map s = .instr i := by
  rw [fetchWith_inside h0 h1, h]

/-- A running step at an instruction runs it. -/
theorem stepWith_of_fetchWith {map : Opcode → Word} {s : State} {i : Instr} (hrun : s.status = .running)
    (h : fetchWith map s = .instr i) : stepWith map s = exec i s := by
  rw [stepWith_running hrun, runningStepWith, h]

/-- A running step whose fetch raises takes the fault. -/
theorem stepWith_of_fetchWith_raised {map : Opcode → Word} {s : State} {c : FaultCause} {info : Word}
    (hrun : s.status = .running) (h : fetchWith map s = .raised c info) :
    stepWith map s = .next (s.faultedAt c info) := by
  rw [stepWith_running hrun, runningStepWith, h]
  exact congrArg Host.Outcome.next (s.takeFault_self c info)

/-- Settles O12: the fetch finds the decoded instruction. -/
theorem stepRunsDecodedInstruction : Obligations.StepRunsDecodedInstruction :=
  fun _ _ _ hrun h0 h1 hdecode => stepWith_of_fetchWith hrun (fetchWith_of_decodeWith h0 h1 hdecode)

/-- Settles O13: the two outcomes of the boundary check. -/
theorem boundaryCheckHaltsOrFaults : Obligations.BoundaryCheckHaltsOrFaults :=
  fun _ hrun => ⟨step_ended hrun, fun hneg => stepWith_of_fetchWith_raised hrun (fetchWith_negative hneg)⟩

/-- Settles O10: the decoder names the first missing operand Word, and the fetch its index. -/
theorem truncatedInstructionFaults : Obligations.TruncatedInstructionFaults := by
  intro s o ops hrun h0 h1 hdrop hshort
  have hdecode : decodeWith Opcode.word (s.program.drop s.ip.toNat) = .error (.truncated (ops.length + 1)) := by
    rw [State.ip_eq, hdrop, decodeWith_cons (lookupOpcode_self Opcode.word_injective o), if_neg (Nat.not_le.mpr hshort)]
  have hfetch : fetchWith Opcode.word s = .raised .fetchRange (s.reg .rip + BitVec.ofNat 32 (ops.length + 1)) := by
    rw [fetchWith_inside h0 h1, hdecode]
    rfl
  exact stepWith_of_fetchWith_raised hrun hfetch

/-- Settles O59: under the map the encoding decodes to its instruction, and an unassigned Word does not decode. -/
theorem stepUnderAnyOpcodeMap : Obligations.StepUnderAnyOpcodeMap := by
  refine ⟨fun _ => rfl, fun map hm s hrun h0 => ⟨fun i rest hdrop => ?_, fun op hop hunassigned => ?_⟩⟩
  · have h1 : (s.reg .rip).toInt < s.program.length := toInt_lt_of_drop_eq_cons h0 hdrop
    exact stepWith_of_fetchWith hrun
      (fetchWith_of_decodeWith h0 h1 ((decodeWith_eq_ok_iff fun _ _ => hm _ _).mpr hdrop))
  · exact stepWith_of_fetchWith_raised hrun (fetchWith_eq_illegalOpcode.mpr ⟨h0, hop, hunassigned⟩)

/-! ## Statuses -/

/-- An instruction run in status RUNNING ends RUNNING with allowed writes, BLOCKED, or FAULTED; never HALTED. -/
theorem exec_ne_halted {i : Instr} {s t : State} (hrun : s.status = .running) (h : exec i s = .next t) :
    t.status ≠ .halted := by
  rcases exec_next_cases h with ⟨u, hu, rfl⟩ | ⟨c, text, -, -, rfl⟩ | ⟨c, info, -, rfl⟩
  · obtain ⟨-, hstatus, -⟩ := hu.sameRun
    rw [State.status_setIp, hstatus, State.status_setIp, hrun]
    nofun
  · nofun
  · nofun

/-- Settles O14: of the ends of a step, only the boundary's is HALTED. -/
theorem haltedOnlyByTheBoundary : Obligations.HaltedOnlyByTheBoundary := by
  intro s t h hhalted hne
  cases stepEnd_of_step h with
  | boundary hrun hend ht => exact ⟨hrun, hend, ht⟩
  | fetchFault _ _ ht | responseFault _ _ ht =>
    subst ht
    cases hhalted
  | instr hrun _ _ hexec => exact absurd hhalted (exec_ne_halted hrun hexec)
  | stays _ ht =>
    subst ht
    exact absurd hhalted hne
  | resumed _ hrun => cases hrun.symm.trans hhalted

/-- Every instruction answers a next state. -/
theorem exec_isNext (i : Instr) (s : State) : ∃ t, exec i s = .next t := by
  rcases exec_cases i s with ⟨_, -, e⟩ | ⟨_, -, e⟩ | ⟨_, _, -, e⟩ <;> exact ⟨_, e⟩

/-- A response of the shape that R144 gives for the call is taken; any other stops the model (log entry 3). -/
theorem applyResponse_of_fits {req : Request} {r : Response} (hfits : Response.fits req.call r = true) (s : State) :
    ∃ t, applyResponse req r s = .next t := by
  rcases applyResponse_cases req r s with
    ⟨-, e⟩ | ⟨_, -, -, -, e⟩ | ⟨_, -, -, -, e⟩ | ⟨_, -, -, e⟩ | ⟨-, -, e⟩ | ⟨hmisfit, -⟩
  iterate 5 exact ⟨_, e⟩
  · cases hfits.symm.trans hmisfit

theorem applyResponse_of_misfit {req : Request} {r : Response} (hmisfit : Response.fits req.call r = false)
    (s : State) : applyResponse req r s = .fault .hostProtocol := by
  rcases applyResponse_cases req r s with
    ⟨rfl, -⟩ | ⟨_, hc, rfl, -⟩ | ⟨_, hc, rfl, -⟩ | ⟨_, hc, rfl, -⟩ | ⟨hc, rfl, -⟩ | ⟨-, e⟩
  · cases hmisfit
  · rw [hc] at hmisfit
    cases hmisfit
  · rw [hc] at hmisfit
    cases hmisfit
  · rcases hc with hc | hc <;> rw [hc] at hmisfit <;> cases hmisfit
  · rcases hc with hc | hc <;> rw [hc] at hmisfit <;> cases hmisfit
  · exact e

/-- A step in status BLOCKED with a response waiting is that response's effect. -/
theorem step_blocked_response {s : State} {req : Request} {r : Response} {rest : List Response}
    (hblocked : s.status = .blocked req) (hr : s.hostAnswers = r :: rest) :
    step s = applyResponse req r { s with hostAnswers := rest } := by
  rcases step_blocked_cases hblocked with ⟨hnone, -⟩ | ⟨r', rest', hr', e⟩
  · cases hnone.symm.trans hr
  · cases hr.symm.trans hr'
    exact e

/-- Settles O16: the response step is the only one that can stop, and it does so on a misfit alone. -/
theorem stepStopsOnlyOnAMisfitResponse : Obligations.StepStopsOnlyOnAMisfitResponse := by
  refine fun s => ⟨fun req r rest hblocked hr hmisfit => ?_, fun hfits => ?_⟩
  · rw [step_blocked_response hblocked hr, applyResponse_of_misfit hmisfit]
  · cases hstatus : s.status with
    | running =>
      rcases step_running_cases hstatus with ⟨-, e⟩ | ⟨_, _, -, e⟩ | ⟨i, _, -, -, e⟩
      · exact ⟨_, e⟩
      · exact ⟨_, e⟩
      · rw [e]
        exact exec_isNext i s
    | blocked req =>
      rcases step_blocked_cases hstatus with ⟨-, e⟩ | ⟨r, rest, hr, e⟩
      · exact ⟨s, e⟩
      · rw [e]
        exact applyResponse_of_fits (hfits req r rest hstatus hr) _
    | halted | faulted => exact ⟨s, step_of_ended (by rw [State.ended, hstatus])⟩

/-! ## Faults -/

/-- An instruction that faults changes nothing but the status (R149). -/
theorem exec_faulted_eq {i : Instr} {s t : State} {c : FaultCause} {info f : Word} (hrun : s.status = .running)
    (h : exec i s = .next t) (hf : t.status = .faulted c info f) : f = s.reg .rip ∧ t = s.faultedAt c info := by
  obtain ⟨hraised, hip⟩ := exec_faulted hrun h hf
  rw [exec_eq, runHandler_raised hraised] at h
  exact ⟨hip, (Host.Outcome.next.inj h).symm⟩

/-- A response step that faults goes back to the INT (R144, R149). -/
theorem step_blocked_faulted {s t : State} {req : Request} {c : FaultCause} {info f : Word}
    (hblocked : s.status = .blocked req) (h : step s = .next t) (hf : t.status = .faulted c info f) :
    f = req.ip0 ∧ t = respondFault s req c info ∧ (c = .syscallIo ∨ c = .memoryBounds) := by
  rcases step_blocked_next hblocked h with ⟨-, rfl⟩ | ⟨c', info', hc, rfl⟩ | ⟨hrun, -⟩
  · cases hblocked.symm.trans hf
  · cases hf
    exact ⟨rfl, rfl, hc⟩
  · cases hrun.symm.trans hf

/-- Settles O18: faults of the fetch and of the instruction in status RUNNING, of the response in status BLOCKED. -/
theorem faultsArePrecise : Obligations.FaultsArePrecise := by
  refine fun s t c info f h hf => ⟨fun hrun => ?_, fun req hblocked => ?_⟩
  · rcases step_running_cases hrun with ⟨-, e⟩ | ⟨_, _, -, e⟩ | ⟨i, _, -, -, e⟩ <;> rw [e] at h
    · cases h
      cases hf
    · cases h
      cases hf
      exact ⟨rfl, rfl⟩
    · exact exec_faulted_eq hrun h hf
  · obtain ⟨hip, ht, -⟩ := step_blocked_faulted hblocked h hf
    exact ⟨hip, ht⟩

/-- Settles O19: a fault of `exec` is one that the handler raised. -/
theorem faultCausesFollowTheTable : Obligations.FaultCausesFollowTheTable := by
  intro i s t c info f hrun h hf
  obtain ⟨hraised, -⟩ := exec_faulted hrun h hf
  exact mayRaise_of_handlerOf_raised hraised

/-- Settles O58: neither the table of R147 nor a response gives ILLEGAL_OPCODE, so the fetch raised it. -/
theorem illegalOpcodeRaisedOnlyByTheFetch : Obligations.IllegalOpcodeRaisedOnlyByTheFetch := by
  intro s t info f hlive h hf
  cases hstatus : s.status with
  | running =>
    obtain ⟨hfetch, hip⟩ := fetch_of_step_illegalOpcode hstatus h hf
    obtain ⟨h0, hop, hne⟩ := fetchWith_eq_illegalOpcode.mp hfetch
    exact ⟨rfl, h0, hip, hop, Opcode.word_ne_iff.mp hne⟩
  | blocked req =>
    obtain ⟨-, -, hc⟩ := step_blocked_faulted hstatus h hf
    cases hc <;> contradiction
  | halted | faulted =>
    rw [State.ended, hstatus] at hlive
    cases hlive

/-! ## Frames of instructions -/

/-- No end of an instruction reaches the program (R27) or the host's responses (log entry 2). -/
theorem exec_keeps_program {i : Instr} {s t : State} (h : exec i s = .next t) :
    t.program = s.program ∧ t.hostAnswers = s.hostAnswers := by
  rcases exec_next_cases h with ⟨u, hu, rfl⟩ | ⟨c, text, -, -, rfl⟩ | ⟨c, info, -, rfl⟩
  · obtain ⟨hprogram, -, hanswers⟩ := hu.sameRun
    exact ⟨hprogram, hanswers⟩
  · exact ⟨rfl, rfl⟩
  · exact ⟨rfl, rfl⟩

theorem exec_keeps_mem {i : Instr} {s t : State} (h : exec i s = .next t) (hi : writesMemory i = false) :
    t.mem = s.mem := by
  rcases exec_next_cases h with ⟨u, hu, rfl⟩ | ⟨c, text, -, -, rfl⟩ | ⟨c, info, -, rfl⟩
  · exact hu.mem_eq hi
  · rfl
  · rfl

theorem exec_keeps_stack {i : Instr} {s t : State} (h : exec i s = .next t) (hi : usesStack i = false) :
    t.stack = s.stack := by
  rcases exec_next_cases h with ⟨u, hu, rfl⟩ | ⟨c, text, -, -, rfl⟩ | ⟨c, info, -, rfl⟩
  · exact hu.stack_eq hi
  · rfl
  · rfl

/-- A register other than `rip` reads the same when a block sets `ip`. -/
theorem State.reg_blockedAt (s : State) (c : HostCall) (text : List Byte) {r : Reg} (hr : r ≠ .rip) :
    (s.blockedAt c text).reg r = s.reg r := by
  have h : (s.blockedAt c text).reg r = (s.setIp (s.reg .rip + 1)).reg r := rfl
  rw [h, State.reg_setIp, if_neg hr]

/-- Settles O17: no end of a step changes the program. -/
theorem programIsNeverWritten : Obligations.ProgramIsNeverWritten := by
  intro s t h
  cases stepEnd_of_step h with
  | boundary _ _ ht | fetchFault _ _ ht | stays _ ht | responseFault _ _ ht =>
    subst ht
    rfl
  | instr _ _ _ hexec =>
    obtain ⟨hprogram, -⟩ := exec_keeps_program hexec
    exact hprogram
  | resumed _ _ _ _ hprogram => exact hprogram

/-- Settles O52: allowed writes keep the flags outside the row; a block and a fault keep all five. -/
theorem flagsWrittenOnlyByTheTable : Obligations.FlagsWrittenOnlyByTheTable := by
  intro i s t h
  rcases exec_next_cases h with ⟨u, hu, rfl⟩ | ⟨c, text, -, -, rfl⟩ | ⟨c, info, -, rfl⟩
  · obtain ⟨hover, hunder, hcomp, -⟩ := hu.flags_allowed
    exact ⟨hover, hunder, hcomp⟩
  · exact ⟨fun _ => rfl, fun _ => rfl, fun _ => ⟨rfl, rfl, rfl⟩⟩
  · exact ⟨fun _ => rfl, fun _ => rfl, fun _ => ⟨rfl, rfl, rfl⟩⟩

/-- Settles O55: allowed writes keep the registers not named; a block writes `rip` alone and a fault none. -/
theorem registersWrittenOnlyWhereNamed : Obligations.RegistersWrittenOnlyWhereNamed := by
  intro i s t r h hr hmay
  rcases exec_next_cases h with ⟨u, hu, rfl⟩ | ⟨c, text, -, -, rfl⟩ | ⟨c, info, -, rfl⟩
  · rw [State.reg_setIp, if_neg hr, hu.reg_eq hmay (fun hc => hr hc.2), State.reg_setIp, if_neg hr]
  · exact State.reg_blockedAt s c text hr
  · rfl

/-- Settles O57: without a write of `rip` the handler leaves `ip0 + k`, to which the loop adds 1. -/
theorem sequentialFlowSkipsTheOperands : Obligations.SequentialFlowSkipsTheOperands := by
  intro i s t hrun htransfer hmay h htrun
  rcases exec_next_cases h with ⟨u, hu, rfl⟩ | ⟨c, text, -, -, rfl⟩ | ⟨c, info, -, rfl⟩
  · have hip : u.ip = s.ip + BitVec.ofNat 32 i.opcode.operandCount := by
      rw [State.ip_eq, hu.reg_eq hmay (fun hc => by cases htransfer.symm.trans hc.1), State.reg_setIp, if_pos rfl]
    rw [State.reg_setIp, if_pos rfl, hip, State.ip_eq, add_right_comm]
  · cases htrun
  · cases htrun

/-- A step changes memory only at a WRITE instruction or by the line that answers a read line. -/
theorem step_changes_mem {s t : State} (h : step s = .next t) (hne : t.mem ≠ s.mem) :
    (s.status = .running ∧ ∃ (i : Instr) (rest : List Word),
      decode (s.program.drop (s.reg .rip).toNat) = .ok (i, rest) ∧ writesMemory i = true) ∨
      ∃ (req : Request) (bs : List Byte) (rest : List Response),
        s.status = .blocked req ∧ req.call = .readLine ∧ s.hostAnswers = .line bs :: rest := by
  cases stepEnd_of_step h with
  | boundary _ _ ht | fetchFault _ _ ht | stays _ ht | responseFault _ _ ht =>
    subst ht
    exact absurd rfl hne
  | @instr hrun i rest _ hd hexec =>
    refine .inl ⟨hrun, i, rest, hd, ?_⟩
    by_contra hi
    exact hne (exec_keeps_mem hexec (Bool.eq_false_iff.mpr hi))
  | @resumed req hblocked _ _ _ _ hmem =>
    rcases hmem with hmem | ⟨bs, rest, hc, hr, -⟩
    · exact absurd hmem hne
    · exact .inr ⟨req, bs, rest, hblocked, hc, hr⟩

/-- A step changes the call stack only at a CALL, RETN, PUSH or POP. -/
theorem step_changes_stack {s t : State} (h : step s = .next t) (hne : t.stack ≠ s.stack) :
    s.status = .running ∧ ∃ (i : Instr) (rest : List Word),
      decode (s.program.drop (s.reg .rip).toNat) = .ok (i, rest) ∧ usesStack i = true := by
  cases stepEnd_of_step h with
  | boundary _ _ ht | fetchFault _ _ ht | stays _ ht | responseFault _ _ ht =>
    subst ht
    exact absurd rfl hne
  | @instr hrun i rest _ hd hexec =>
    refine ⟨hrun, i, rest, hd, ?_⟩
    by_contra hi
    exact hne (exec_keeps_stack hexec (Bool.eq_false_iff.mpr hi))
  | resumed _ _ _ hstack => exact absurd hstack hne

theorem sameMemory_of_eq {s t : State} (h : t.mem = s.mem) : SameMemory s t := fun _ => by rw [h]

theorem sameStack_of_eq {s t : State} (h : t.stack = s.stack) : SameStack s t := by
  rw [SameStack, h]
  exact ⟨rfl, fun _ => rfl⟩

/-- Settles O56: the frames of an instruction, and the two ways a step changes a storage space. -/
theorem storageSpacesReachedOnlyByTheirInstructions : Obligations.StorageSpacesReachedOnlyByTheirInstructions :=
  ⟨fun _ _ _ h => ⟨fun hi => sameMemory_of_eq (exec_keeps_mem h hi), fun hi => sameStack_of_eq (exec_keeps_stack h hi),
      exec_keeps_program h⟩,
    fun _ _ h => ⟨fun hne => step_changes_mem h (mt sameMemory_of_eq hne),
      fun hne => step_changes_stack h (mt sameStack_of_eq hne)⟩⟩

end Sys2Proof.Machine

/-! The rules of DIV, NOT, CMP, LABEL, the byte reads, PUSH and POP, and the round trips of memory and call stack. Each
effect comes from the lemma of its operand form, as in the rules of the other families. -/

namespace Sys2Proof.Machine

open Sys2Proof.Rules

/-! ## DIV -/

/-- Truncating division has a remainder of the dividend's sign, smaller than the divisor (R96). -/
theorem tdiv_spec {a b : Int} (hb : b ≠ 0) :
    a = a.tdiv b * b + (a - a.tdiv b * b) ∧ (a - a.tdiv b * b).natAbs < b.natAbs ∧
      (0 < a - a.tdiv b * b → 0 < a) ∧ (a - a.tdiv b * b < 0 → a < 0) := by
  have hr : a - a.tdiv b * b = a.tmod b := by rw [Int.tmod_def, mul_comm]
  rw [hr]
  refine ⟨?_, ?_, fun hpos => ?_, fun hneg => ?_⟩
  · rw [mul_comm]
    exact (Int.mul_tdiv_add_tmod a b).symm
  · rw [Int.natAbs_tmod]
    exact Nat.mod_lt _ (Int.natAbs_pos.mpr hb)
  · by_contra ha
    have hneg := Int.tmod_nonneg (a := -a) b (by omega)
    rw [Int.neg_tmod] at hneg
    omega
  · by_contra ha
    have := Int.tmod_nonneg b (not_lt.mp ha)
    omega

/-- What DIV does to its operands, whichever form fetched them (R96 to R98). -/
theorem divEffect_of_exec {i : Instr} {o : Opcode} {h : State → HandlerResult} {s : State} {d : Reg} {a b : Word}
    (hexec : exec i s = runHandler o h s) (hk : o.operandCount = 2)
    (happly : h (s.inHandler o) = aluDiv d a b (s.inHandler o)) : DivEffect i s d a b := by
  constructor
  · intro hb
    rw [aluDiv, if_pos hb] at happly
    exact hexec.trans (runHandler_raised happly)
  · intro hb
    rw [aluDiv, if_neg hb] at happly
    have hb' : b.toInt ≠ 0 := fun h0 => hb (BitVec.eq_of_toInt_eq h0)
    obtain ⟨hsum, hlt, hpos, hneg⟩ := tdiv_spec (a := a.toInt) hb'
    refine ⟨_, _, hsum, hlt, hpos, hneg, becomes_of_done hexec happly (fun r => ?_) rfl
      ⟨fun _ => rfl, ⟨rfl, fun _ => rfl⟩, rfl, rfl, rfl⟩⟩
    rw [State.reg_setReg, State.reg_setReg, State.reg_inHandler, hk, wrapped_eq_wrap32, wrapped_eq_wrap32, oneWrite]
    split
    · rfl
    · split <;> rfl

/-- Settles O25: both forms run `aluDiv`, on what R19 says their registers read as. -/
theorem divRules : Obligations.DivRules :=
  ⟨dwordChecks_of_exec (op := aluDiv) (fun rd imm => (Laws.EncodedShape.divDword rd imm).1)
      fun rd imm => exec_eq (.divDword rd imm),
    regChecks_of_exec (op := aluDiv) (fun rd rs => (Laws.EncodedShape.divReg rd rs).1)
      fun rd rs => exec_eq (.divReg rd rs),
    fun s d imm => divEffect_of_exec (exec_eq (.divDword d.index imm) s) rfl
      ((dwordForm_index d imm aluDiv _).trans (by rw [State.reg_inHandler]; rfl)),
    fun s d r => divEffect_of_exec (exec_eq (.divReg d.index r.index) s) rfl (regForm_inHandler rfl aluDiv s d r)⟩

/-! ## NOT -/

/-- The complement of a pattern is `-v - 1` in two's complement (R8). -/
theorem not_eq_wrapped (b : Word) : ~~~b = wrapped (-b.toInt - 1) := by
  have h : BitVec.ofInt 32 (-b.toInt - 1) = -b - 1 := by
    rw [Int.sub_eq_add_neg, BitVec.ofInt_add, BitVec.ofInt_neg, BitVec.ofInt_toInt, BitVec.sub_eq_add_neg]
    rfl
  rw [wrapped_eq_wrap32, wrap32, h, BitVec.neg_eq_not_add]
  exact (add_sub_cancel_right _ _).symm

theorem aluNot_computes :
    AluOp.Computes aluNot (fun d _ b => oneWrite d (wrapped (-b.toInt - 1))) keepFlags :=
  AluOp.computes_keepFlags fun d _ b s => by rw [aluNot, not_eq_wrapped]

/-- Settles O27: NOT in both operand forms, from what `aluNot` computes. -/
theorem notRules : Obligations.NotRules :=
  ⟨dwordRule_of_computes aluNot_computes rfl (fun rd imm => (Laws.EncodedShape.notDword rd imm).1)
      fun rd imm => exec_eq (.notDword rd imm),
    regRule_of_computes aluNot_computes rfl (fun rd rs => (Laws.EncodedShape.notReg rd rs).1)
      fun rd rs => exec_eq (.notReg rd rs)⟩

/-! ## CMP -/

/-- An operation that sets the flags alone. -/
theorem AluOp.computes_setFlags {op : AluOp} {f : Word → Word → Flags → Flags}
    (h : ∀ d a b s, op d a b s = .done (s.setFlags (f a b s.flags))) :
    AluOp.Computes op (fun _ _ _ => noWrite) f :=
  fun d a b s => ⟨_, h d a b s, fun _ => rfl, rfl, fun _ => rfl, ⟨rfl, fun _ => rfl⟩, rfl, rfl, rfl⟩

/-- A comparison of `a` and `b` whose GREATER, for different values, is `gt` and whose LOWER is `lt`. -/
theorem compareFlags_eq {a b : Word} {gt greater lower : Prop} [Decidable gt] [Decidable greater] [Decidable lower]
    (heq : a = b → ¬ greater ∧ ¬ lower) (hne : a ≠ b → (gt ↔ greater) ∧ (¬ gt ↔ lower)) (f : Flags) :
    compareFlags a b (decide gt) f =
      { f with greater := decide greater, lower := decide lower, equal := decide (a = b) } := by
  by_cases h : a = b
  · obtain ⟨hg, hl⟩ := heq h
    simp [compareFlags, h, hg, hl]
  · obtain ⟨hg, hl⟩ := hne h
    by_cases hgt : gt
    · simp [compareFlags, h, hgt, ← hg, ← hl]
    · simp [compareFlags, h, hgt, ← hg, ← hl]

/-- CMP_DWORD: GREATER means that the register is the greater one (R114). -/
theorem cmpDwordFlags_eq (a b : Word) (f : Flags) :
    cmpDwordFlags a b f = { f with
      greater := decide (a.toInt > b.toInt), lower := decide (a.toInt < b.toInt), equal := decide (a = b) } := by
  refine compareFlags_eq (fun h => ?_) (fun h => ?_) f
  · subst h
    omega
  · have : a.toInt ≠ b.toInt := fun e => h (BitVec.eq_of_toInt_eq e)
    omega

/-- CMP_REG: GREATER means that the second register is the greater one (R115). -/
theorem cmpRegFlags_eq (a b : Word) (f : Flags) :
    cmpRegFlags a b f = { f with
      greater := decide (b.toInt > a.toInt), lower := decide (b.toInt < a.toInt), equal := decide (a = b) } := by
  refine compareFlags_eq (fun h => ?_) (fun h => ?_) f
  · subst h
    omega
  · have : a.toInt ≠ b.toInt := fun e => h (BitVec.eq_of_toInt_eq e)
    omega

theorem aluCmpDword_computes : AluOp.Computes aluCmpDword (fun _ _ _ => noWrite) (fun a b f =>
    { f with greater := decide (a.toInt > b.toInt), lower := decide (a.toInt < b.toInt), equal := decide (a = b) }) :=
  AluOp.computes_setFlags fun d a b s => by rw [aluCmpDword, cmpDwordFlags_eq]

theorem aluCmpReg_computes : AluOp.Computes aluCmpReg (fun _ _ _ => noWrite) (fun a b f =>
    { f with greater := decide (b.toInt > a.toInt), lower := decide (b.toInt < a.toInt), equal := decide (a = b) }) :=
  AluOp.computes_setFlags fun d a b s => by rw [aluCmpReg, cmpRegFlags_eq]

/-- Settles O29: each form sets the flags of its own orientation. -/
theorem compareRules : Obligations.CompareRules :=
  ⟨dwordRule_of_computes aluCmpDword_computes rfl (fun rd imm => (Laws.EncodedShape.cmpDword rd imm).1)
      fun rd imm => exec_eq (.cmpDword rd imm),
    regRule_of_computes aluCmpReg_computes rfl (fun rd rs => (Laws.EncodedShape.cmpReg rd rs).1)
      fun rd rs => exec_eq (.cmpReg rd rs)⟩

/-- Settles O30: the alternative order is the comparison of CMP_DWORD, and under either order EQUAL is `a = b` and the
other two flags are kept. -/
theorem compareOrderParameter : Obligations.CompareOrderParameter := by
  intro a b f
  have hfirst : cmpRegFlagsIn .firstGtSecond a b f = cmpDwordFlags a b f := rfl
  have hsecond : cmpRegFlagsIn .secondGeFirst a b f = cmpRegFlags a b f := rfl
  rw [hfirst, hsecond, cmpDwordFlags_eq, cmpRegFlags_eq]
  exact ⟨rfl, rfl, rfl, rfl⟩

/-! ## LABEL -/

/-- Settles O31: LABEL's handler completes at once. -/
theorem labelFallsThrough : Obligations.LabelFallsThrough :=
  ⟨fun id => (Laws.EncodedShape.label id).1, fun s id =>
    becomes_of_done (exec_eq (.label id) s) rfl (fun r => s.reg_inHandler .label r) rfl (sameData_setIp s _)⟩

/-! ## The byte reads -/

/-- The byte load as an operation of the two operand fetches (R83): the second operand is the address. -/
abbrev loadByteAt : AluOp := fun d _ a => loadByte d a

/-- The two outcomes of the byte load are the two clauses of a sign-extending load (R44). -/
theorem byteLoadEffect_of_exec {i : Instr} {o : Opcode} {h : State → HandlerResult} {s : State} {d : Reg} {a : Word}
    (hexec : exec i s = runHandler o h s) (hk : o.operandCount = 2)
    (happly : h (s.inHandler o) = loadByte d a (s.inHandler o)) : ByteLoadEffect i s d a := by
  rw [ByteLoadEffect, ← byteInBounds, byteInBounds_iff_not, ← sext8_eq]
  rcases memReadByte_cases a (s.inHandler o) (fun b => .done ((s.inHandler o).setReg d (sext8 b))) with
    ⟨haddr, hdone⟩ | ⟨haddr, hraised⟩ <;> rw [byteInBounds_iff_not] at haddr
  · exact ⟨fun hout => absurd hout haddr, fun _ => becomes_of_setReg hexec hk (happly.trans hdone)⟩
  · exact ⟨fun _ => hexec.trans (runHandler_raised (happly.trans hraised)), fun hin => absurd hin haddr⟩

/-- Settles O38: both forms run the byte load, the REG form at what its address register reads as. -/
theorem byteReadRules : Obligations.ByteReadRules :=
  ⟨dwordChecks_of_exec (op := loadByteAt) (fun rd addr => (Laws.EncodedShape.readByteDword rd addr).1)
      fun rd addr => exec_eq (.readByteDword rd addr),
    regChecks_of_exec (op := loadByteAt) (fun rd ra => (Laws.EncodedShape.readByteReg rd ra).1)
      fun rd ra => exec_eq (.readByteReg rd ra),
    fun s d addr => byteLoadEffect_of_exec (exec_eq (.readByteDword d.index addr) s) rfl
      (dwordForm_index d addr loadByteAt _),
    fun s d a => byteLoadEffect_of_exec (exec_eq (.readByteReg d.index a.index) s) rfl
      (regForm_inHandler rfl loadByteAt s d a)⟩

/-! ## Written memory reads back -/

/-- After an instruction that writes `v` to `d` alone, `d` holds `v` (and the loop's 1 where `d` is `rip`). -/
theorem reg_of_becomes_oneWrite {i : Instr} {s : State} {k : Nat} {d : Reg} {v : Word} {f : Flags}
    {Rest : State → State → Prop} (h : Becomes i s k (oneWrite d v) f Rest) :
    ∃ t, exec i s = .next t ∧ t.reg d = v + (if d = .rip then 1 else 0) ∧ Rest s t := by
  obtain ⟨t, hexec, hregs, -, hrest⟩ := h
  refine ⟨t, hexec, ?_, hrest⟩
  rw [hregs d, oneWrite, if_pos rfl, Option.getD_some]

/-- The big-endian sum of a Word's four bytes is the Word (R45, R47). -/
theorem ofNat_bytes (v : Word) :
    BitVec.ofNat 32 ((BitVec.ofNat 8 (v.toNat / 2 ^ 24)).toNat * 2 ^ 24 +
      (BitVec.ofNat 8 (v.toNat / 2 ^ 16)).toNat * 2 ^ 16 + (BitVec.ofNat 8 (v.toNat / 2 ^ 8)).toNat * 2 ^ 8 +
      (BitVec.ofNat 8 v.toNat).toNat) = v := by
  apply BitVec.eq_of_toNat_eq
  have := v.isLt
  simp only [BitVec.toNat_ofNat]
  omega

/-- The sign extension of the byte stored for a value in the byte range is the value (R46, R133). -/
theorem sext8_ofInt {v : Word} (h : -128 ≤ v.toInt ∧ v.toInt ≤ 127) : sext8 (BitVec.ofInt 8 v.toInt) = v := by
  apply BitVec.eq_of_toInt_eq
  obtain ⟨h1, h2⟩ := h
  rw [sext8, BitVec.toInt_signExtend, BitVec.toInt_ofInt, show min 32 8 = 8 from rfl]
  simp only [Int.bmod_def]
  omega

/-- A Word stored and read back from the same four bytes is unchanged. -/
theorem word_readsBack (s : State) {a : Word} (v : Word) (ha : 0 ≤ a.toInt ∧ a.toInt ≤ 65532) :
    ∃ t : State, exec (.writeWordDword a v) s = .next t ∧
      ∀ u : State, (∀ j : Nat, j < 4 → u.mem.byte (a.toNat + j) = t.mem.byte (a.toNat + j)) →
        ∀ d : Reg, ∃ w : State, exec (.readWordDword d.index a) u = .next w ∧
          w.reg d = v + (if d = .rip then 1 else 0) := by
  obtain ⟨-, hwrite, -, -⟩ := wordWriteRules
  obtain ⟨-, -, hread, -⟩ := wordReadRules
  obtain ⟨t, ht, -, -, h0, h1, h2, h3, -⟩ := (hwrite s a v).2 ha
  refine ⟨t, ht, fun u hu d => ?_⟩
  obtain ⟨w, hw, hreg, -⟩ := reg_of_becomes_oneWrite ((hread u d a).2 ha)
  refine ⟨w, hw, ?_⟩
  have hu0 := hu 0 (by decide)
  rw [Nat.add_zero] at hu0
  rw [hreg, hu0, hu 1 (by decide), hu 2 (by decide), hu 3 (by decide), h0, h1, h2, h3, ofNat_bytes]

/-- A byte value stored and read back from the same byte is unchanged. -/
theorem byte_readsBack (s : State) {a v : Word} (ha : 0 ≤ a.toInt ∧ a.toInt ≤ 65535)
    (hv : -128 ≤ v.toInt ∧ v.toInt ≤ 127) :
    ∃ t : State, exec (.writeByteDword a v) s = .next t ∧
      ∀ u : State, u.mem.byte a.toNat = t.mem.byte a.toNat →
        ∀ d : Reg, ∃ w : State, exec (.readByteDword d.index a) u = .next w ∧
          w.reg d = v + (if d = .rip then 1 else 0) := by
  obtain ⟨-, hwrite, -, -⟩ := byteWriteRules
  obtain ⟨-, -, hread, -⟩ := byteReadRules
  obtain ⟨-, -, hstore⟩ := hwrite s a v
  obtain ⟨t, ht, -, -, hbyte, -⟩ := hstore hv ha
  refine ⟨t, ht, fun u hu d => ?_⟩
  obtain ⟨w, hw, hreg, -⟩ := reg_of_becomes_oneWrite ((hread u d a).2 ha)
  refine ⟨w, hw, ?_⟩
  rw [hreg, ← sext8_eq, hu, hbyte, if_pos rfl, sext8_ofInt hv]

/-- Settles O40: the round trips of a Word and of a byte value. -/
theorem writtenMemoryReadsBack : Obligations.WrittenMemoryReadsBack :=
  ⟨fun s _ v ha => word_readsBack s v ha, fun s _ _ ha hv => byte_readsBack s ha hv⟩

/-! ## PUSH and POP -/

/-- What PUSH's handler can do where it runs: push what it reads from its register, or raise (R31, R138). -/
theorem pushRegister_cases (s : State) (d : Reg) :
    (s.stack.sp < Config.stackUsable ∧ unaryForm d.index pushRegister (s.inHandler .push) =
        .done { s.inHandler .push with stack := s.stack.push (s.operand 1 d) }) ∨
      (Config.stackUsable ≤ s.stack.sp ∧ unaryForm d.index pushRegister (s.inHandler .push) =
        .raised .stackOverflow (s.operand 1 d)) := by
  have hread : (s.inHandler .push).reg d = s.operand 1 d := s.reg_inHandler .push d
  rw [unaryForm_index, pushRegister, hread]
  exact pushWord_cases (s.operand 1 d) (s.inHandler .push) .done

/-- PUSH on a full stack takes `STACK_OVERFLOW` with the value (R31, R138). -/
theorem push_full {s : State} (d : Reg) (hfull : Config.stackUsable ≤ s.stack.sp) :
    exec (.push d.index) s = .next (s.faultedAt .stackOverflow (s.operand 1 d)) := by
  rcases pushRegister_cases s d with ⟨hroom, -⟩ | ⟨-, hraised⟩
  · exact absurd hroom (Nat.not_lt.mpr hfull)
  · exact (exec_eq (.push d.index) s).trans (runHandler_raised hraised)

/-- PUSH with room on the stack pushes what the handler reads and writes no register (R31, R138). -/
theorem push_becomes {s : State} (d : Reg) (hroom : s.stack.sp < Config.stackUsable) :
    Becomes (.push d.index) s 1 noWrite s.flags
      fun s t => Pushed s t (s.operand 1 d) ∧ SameMemory s t ∧ SameRun s t := by
  rcases pushRegister_cases s d with ⟨-, hdone⟩ | ⟨hfull, -⟩
  · exact becomes_of_done (exec_eq (.push d.index) s) hdone (fun r => s.reg_inHandler .push r) rfl
      ⟨⟨rfl, CallStack.slot_push s.stack (s.operand 1 d)⟩, fun _ => rfl, rfl, rfl, rfl⟩
  · exact absurd hroom (Nat.not_lt.mpr hfull)

/-- POP on an empty stack takes `STACK_UNDERFLOW` (R139). -/
theorem pop_empty {s : State} (d : Reg) (hempty : s.stack.sp = 0) :
    exec (.pop d.index) s = .next (s.faultedAt .stackUnderflow 0) :=
  (exec_eq (.pop d.index) s).trans (runHandler_raised ((unaryForm_index d popRegister _).trans (if_pos hempty)))

/-- POP moves the top entry to its register; the entry stays in its slot (R32, R139). -/
theorem pop_becomes {s : State} (d : Reg) (hpos : 0 < s.stack.sp) :
    Becomes (.pop d.index) s 1 (oneWrite d (s.stack.slot s.stack.sp)) s.flags
      fun s t => Popped s t ∧ SameMemory s t ∧ SameRun s t := by
  refine becomes_of_done (exec_eq (.pop d.index) s) ((unaryForm_index d popRegister _).trans (if_neg hpos.ne'))
    (fun r => ?_) rfl ⟨⟨Nat.sub_add_cancel hpos, CallStack.slot_pop s.stack⟩, fun _ => rfl, rfl, rfl, rfl⟩
  have hread : (s.inHandler .pop).reg r = s.operand 1 r := s.reg_inHandler .pop r
  rw [State.reg_setReg, ← hread, oneWrite]
  split <;> rfl

/-- Settles O41: PUSH and POP at both ends of the stack and between them. -/
theorem pushAndPopRules : Obligations.PushAndPopRules :=
  ⟨unaryChecks_of_exec (op := pushRegister) (fun rd => (Laws.EncodedShape.push rd).1) fun rd => exec_eq (.push rd),
    unaryChecks_of_exec (op := popRegister) (fun rd => (Laws.EncodedShape.pop rd).1) fun rd => exec_eq (.pop rd),
    fun _ d => ⟨fun hfull => push_full d hfull.ge, push_becomes d, pop_empty d, pop_becomes d⟩⟩

/-! ## Round trips of the call stack -/

/-- The top of a stack that a push left is the value pushed. -/
theorem slot_sp_of_pushed {s t u : State} {v : Word} (h : Pushed s t v) (hu : u.stack = t.stack) :
    u.stack.sp = s.stack.sp + 1 ∧ u.stack.slot u.stack.sp = v := by
  obtain ⟨hsp, hslot⟩ := h
  rw [hu, hslot, hsp, if_pos rfl]
  exact ⟨rfl, rfl⟩

/-- Settles O42: the top entry that POP moves is the one that PUSH left. -/
theorem pushThenPopMovesTheValue : Obligations.PushThenPopMovesTheValue := by
  intro s a b hroom
  obtain ⟨t, ht, -, -, hpushed, -⟩ := push_becomes a hroom
  refine ⟨t, ht, fun u hu => ?_⟩
  obtain ⟨hsp, htop⟩ := slot_sp_of_pushed hpushed hu
  obtain ⟨v, hv, hreg, ⟨hpopped, -⟩, -⟩ := reg_of_becomes_oneWrite (pop_becomes (s := u) b (by omega))
  exact ⟨v, hv, by rw [hreg, htop], by omega⟩

/-- Settles O35: the return index that RETN pops is the one that CALL left. -/
theorem callThenReturnResumesAfterTheCall : Obligations.CallThenReturnResumesAfterTheCall := by
  intro s tgt hroom
  obtain ⟨t, ht, -, -, hpushed, -⟩ := call_becomes tgt hroom
  refine ⟨t, ht, fun u hu => ?_⟩
  obtain ⟨hsp, htop⟩ := slot_sp_of_pushed hpushed hu
  obtain ⟨v, hv, hreg, ⟨hpopped, -⟩, -⟩ := reg_of_becomes_oneWrite (retn_becomes (s := u) (by omega))
  refine ⟨v, hv, ?_, by omega⟩
  rw [hreg, htop, if_pos rfl, wrapped_eq_wrap32, wrap32_toInt_add_one, add_assoc]
  rfl

end Sys2Proof.Machine

/-! System calls (`47_system.md`): the string that INT reads, INT's own ends, and the response step. -/

namespace Sys2Proof.Machine

open Sys2Proof.Rules

/-! ## The string -/

/-- The string read answers `bs` exactly when `bs` is the null-terminated string at the address (R49). -/
theorem Memory.string_eq_ok {m : Memory} {a : Word} {bs : List Byte} : m.string a = .ok bs ↔ IsString m a bs := by
  have hspan : ∀ n, n < Config.memSize - a.toNat ↔ a.toNat + n ≤ 65535 := fun n => by rw [memSize_eq]; omega
  have hscan := Memory.scan_eq_some (m := m) (n := Config.memSize - a.toNat) (a := a.toNat) (bs := bs)
  rw [hspan] at hscan
  rcases Memory.string_cases m a with ⟨⟨h0, h1⟩, text, htext, e⟩ | ⟨⟨h0, h1⟩, hnone, e⟩ | ⟨hout, e⟩ <;> rw [e]
  · rw [htext, Option.some.injEq] at hscan
    rw [Except.ok.injEq, hscan]
    exact ⟨fun h => ⟨h0, h1, h⟩, fun ⟨_, _, h⟩ => h⟩
  · rw [hnone] at hscan
    exact ⟨nofun, fun ⟨_, _, h⟩ => by cases hscan.mpr h⟩
  · exact ⟨nofun, fun ⟨h0, h1, _⟩ => absurd ⟨h0, h1⟩ hout⟩

/-- An address outside byte bounds is its own fault info (R49). -/
theorem Memory.string_eq_error_of_outside {m : Memory} {a : Word} (h : a.toInt < 0 ∨ 65535 < a.toInt) :
    m.string a = .error a :=
  if_neg fun hin => byteInBounds_iff_not.mp hin h

/-- Without a 0 byte from the address to the end of memory the info is the memory size (R49). -/
theorem Memory.string_eq_error_of_unterminated {m : Memory} {a : Word} (ha : byteInBounds a)
    (h : ∀ n : Nat, a.toNat ≤ n → n ≤ 65535 → m.byte n ≠ 0) : m.string a = .error 65536 := by
  have hnone : m.scan (Config.memSize - a.toNat) a.toNat = none :=
    Memory.scan_eq_none.mpr fun j hj => h _ (Nat.le_add_right _ _) (by rw [memSize_eq] at hj; omega)
  rw [Memory.string, if_pos ha, hnone]

/-! ## INT -/

theorem HostCall.id_toInt_bounds (c : HostCall) : 0 ≤ c.id.toInt ∧ c.id.toInt ≤ 5 := by cases c <;> decide

theorem systemCall_id (c : HostCall) (text : List Byte) (ip0 : Word) (s : State) :
    systemCall c.id text ip0 s = blockOn c text ip0 s := by
  cases c <;> rfl

/-- INT whose string read fails takes that fault, whatever its id (R142). -/
theorem int_of_string_error {s : State} {info : Word} (id : Word) (h : s.mem.string (s.reg .r1) = .error info) :
    exec (.int id) s = .next (s.faultedAt .memoryBounds info) := by
  have hraised : intHandler id s.ip (s.inHandler .int) = .raised .memoryBounds info := by
    rw [intHandler, State.reg_setIp, if_neg nofun, State.mem_setIp, h]
  exact (exec_eq (.int id) s).trans (runHandler_raised hraised)

/-- INT whose string has been read goes on to the dispatch on its id (R142). -/
theorem intHandler_of_string_ok {s : State} {text : List Byte} (id : Word)
    (h : s.mem.string (s.reg .r1) = .ok text) :
    intHandler id s.ip (s.inHandler .int) = systemCall id text s.ip (s.inHandler .int) := by
  rw [intHandler, State.reg_setIp, if_neg nofun, State.mem_setIp, h]

/-- An id outside 0 to 5 raises `SYSCALL_ID` (R142). -/
theorem systemCall_bad {id : Word} (h : id.toInt < 0 ∨ 5 < id.toInt) (text : List Byte) (ip0 : Word) (s : State) :
    systemCall id text ip0 s = .raised .syscallId id := by
  rcases systemCall_cases id text ip0 s with ⟨c, rfl, -⟩ | ⟨rfl, -⟩ | ⟨-, e⟩
  · have := c.id_toInt_bounds
    omega
  · exact absurd h (by decide)
  · exact e

/-- Settles O44: the two ways the string read fails, and the dispatch on an id outside its range. -/
theorem intChecksTheStringThenTheId : Obligations.IntChecksTheStringThenTheId := by
  refine ⟨fun id => (Laws.EncodedShape.int id).1,
    fun s id => ⟨fun hout => ?_, fun hin hbytes => ?_, fun bs hbs hid => ?_⟩⟩
  · exact int_of_string_error id (Memory.string_eq_error_of_outside hout)
  · exact int_of_string_error id (Memory.string_eq_error_of_unterminated hin hbytes)
  · refine (exec_eq (.int id) s).trans (runHandler_raised ?_)
    exact (intHandler_of_string_ok id (Memory.string_eq_ok.mpr hbs)).trans (systemCall_bad hid bs _ _)

/-- INT of a host call blocks on its request (R142). -/
theorem int_blocks {s : State} {text : List Byte} (c : HostCall) (h : s.mem.string (s.reg .r1) = .ok text) :
    exec (.int c.id) s = .next (s.blockedAt c text) := by
  have hblock := (intHandler_of_string_ok c.id h).trans (systemCall_id c text s.ip _)
  exact (exec_eq (.int c.id) s).trans (runHandler_blocked hblock)

/-- INT 5 writes the memory size to r1 (R142). -/
theorem int_memSize_becomes {s : State} {text : List Byte} (h : s.mem.string (s.reg .r1) = .ok text) :
    Becomes (.int 5) s 1 (oneWrite .r1 65536) s.flags SameData :=
  becomes_of_setReg (exec_eq (.int 5) s) rfl (intHandler_of_string_ok 5 h)

/-- Settles O45: the dispatch of INT once its string has been read. -/
theorem intRunsOrBlocks : Obligations.IntRunsOrBlocks := fun _ _ hbs =>
  ⟨int_memSize_becomes (Memory.string_eq_ok.mpr hbs), fun c => int_blocks c (Memory.string_eq_ok.mpr hbs)⟩

/-- An instruction that ends BLOCKED is the INT of the request's call, and the state is that of its block. -/
theorem exec_blocked {i : Instr} {s t : State} {req : Request} (hrun : s.status = .running) (h : exec i s = .next t)
    (hb : t.status = .blocked req) :
    i = .int req.call.id ∧ req.arg1 = s.reg .r1 ∧ req.arg2 = s.reg .r2 ∧ req.arg3 = s.reg .r3 ∧
      req.ip0 = s.reg .rip ∧
      t = { s with regs := { s.regs with rip := s.reg .rip + 1 }, status := .blocked req } := by
  rcases exec_next_cases h with ⟨u, hu, rfl⟩ | ⟨c, text, hi, -, rfl⟩ | ⟨c, info, -, rfl⟩
  · obtain ⟨-, hstatus, -⟩ := hu.sameRun
    rw [State.status_setIp, hstatus, State.status_setIp, hrun] at hb
    cases hb
  · cases hb
    exact ⟨hi, rfl, rfl, rfl, rfl, rfl⟩
  · cases hb

/-- Settles O46: of the ends of a running step, only an INT's is BLOCKED. -/
theorem blockedOnlyByInt : Obligations.BlockedOnlyByInt := by
  intro s t req hrun h hb
  cases stepEnd_of_step h with
  | boundary _ _ ht | fetchFault _ _ ht | responseFault _ _ ht =>
    subst ht
    cases hb
  | @instr _ i rest _ hd hexec =>
    obtain ⟨rfl, hblock⟩ := exec_blocked hrun hexec hb
    exact ⟨⟨rest, hd⟩, hblock⟩
  | stays hne => exact absurd hrun hne
  | resumed _ hrun' => cases hrun'.symm.trans hb

/-! ## The response step -/

/-- A response step that resumes from `u`: the registers of `u` are those of `s` but for r1, and `u` is `s` with the
response taken in all but memory. -/
theorem resumes_of_step {s u : State} {w : Option Word} {Mem : State → State → Prop} (h : step s = .next u.resume)
    (hreg : ∀ r, u.reg r = if r = .r1 then w.getD (s.reg .r1) else s.reg r) (hflags : u.flags = s.flags)
    (hstack : u.stack = s.stack) (hprogram : u.program = s.program) (hanswers : u.hostAnswers = s.hostAnswers.tail)
    (hmem : Mem s u.resume) : Resumes s w Mem := by
  refine ⟨u.resume, h, fun r => ?_, hflags, hmem, sameStack_of_eq hstack, hprogram, rfl, hanswers⟩
  have hip : u.ip = s.reg .rip := (hreg .rip).trans (if_neg nofun)
  rw [State.reg_resume, hip, wrap32_toInt_add_one, hreg]

/-- The bytes of a stored line, its terminator, and every byte outside it (R50). -/
theorem Memory.byte_setLine (m : Memory) (a : Nat) (bs : List Byte) :
    (∀ j (_ : j < bs.length), (m.setLine a bs).byte (a + j) = bs[j]) ∧ (m.setLine a bs).byte (a + bs.length) = 0 ∧
      ∀ n : Nat, n < a ∨ a + bs.length < n → (m.setLine a bs).byte n = m.byte n := by
  simp only [Memory.setLine, Memory.byte_setBytes, List.length_append, List.length_singleton]
  refine ⟨fun j hj => ?_, ?_, fun n hn => ?_⟩
  · rw [dif_pos (by omega)]
    simp only [Nat.add_sub_cancel_left, List.getElem_append_left hj]
  · rw [dif_pos (by omega)]
    simp only [Nat.add_sub_cancel_left, List.getElem_concat_length]
  · rw [dif_neg (by omega)]

/-- A line that fits is stored at r2, and its length goes to r1 (R144). -/
theorem line_resumes {s : State} {req : Request} {bs : List Byte} {rest : List Response}
    (hblocked : s.status = .blocked req) (hc : req.call = .readLine) (hr : s.hostAnswers = .line bs :: rest)
    (hfits : lineFits (s.reg .r2) bs) :
    Resumes s (some (BitVec.ofNat 32 bs.length)) fun s t =>
      (∀ j (_ : j < bs.length), t.mem.byte ((s.reg .r2).toNat + j) = bs[j]) ∧
        t.mem.byte ((s.reg .r2).toNat + bs.length) = 0 ∧
        ∀ n : Nat, n < (s.reg .r2).toNat ∨ (s.reg .r2).toNat + bs.length < n → t.mem.byte n = s.mem.byte n := by
  have hstep := (step_blocked_response hblocked hr).trans ((applyResponse_line hc).trans (if_pos hfits))
  exact resumes_of_step hstep (fun r => by rw [State.reg_setReg]; rfl) rfl rfl rfl (by rw [hr]; rfl)
    (Memory.byte_setLine s.mem _ bs)

/-- A Word from the host goes to r1 (R144). -/
theorem word_resumes {s : State} {req : Request} {w : Word} {rest : List Response}
    (hblocked : s.status = .blocked req) (hc : req.call = .readFileByte ∨ req.call = .fileSize)
    (hr : s.hostAnswers = .word w :: rest) : Resumes s (some w) SameMemory :=
  resumes_of_step ((step_blocked_response hblocked hr).trans (applyResponse_word hc))
    (fun r => by rw [State.reg_setReg]; rfl) rfl rfl rfl (by rw [hr]; rfl) fun _ => rfl

/-- A call that is done writes no register (R144). -/
theorem done_resumes {s : State} {req : Request} {rest : List Response} (hblocked : s.status = .blocked req)
    (hc : req.call = .writeLine ∨ req.call = .writeFileByte) (hr : s.hostAnswers = .done :: rest) :
    Resumes s none SameMemory := by
  refine resumes_of_step ((step_blocked_response hblocked hr).trans (applyResponse_done hc)) (fun r => ?_) rfl rfl rfl
    (by rw [hr]; rfl) fun _ => rfl
  split
  · next h => rw [h]; rfl
  · rfl

/-- Settles O47: the three shapes of a response that succeeds. -/
theorem responseStepResumes : Obligations.ResponseStepResumes :=
  fun _ _ _ hblocked => ⟨fun _ hc hr hfits => line_resumes hblocked hc hr hfits,
    fun _ hc hr => word_resumes hblocked hc hr, fun hc hr => done_resumes hblocked hc hr⟩

/-- Settles O48: a failed response, and a line that does not fit. -/
theorem responseStepFaults : Obligations.ResponseStepFaults := by
  refine fun s req rest hblocked => ⟨fun hr => ?_, fun bs hc hr hout => ?_⟩
  · rw [step_blocked_response hblocked hr, applyResponse_fail]
    exact congrArg Host.Outcome.next (takeFault_eq_respondFault hr)
  · have hfits : ¬ lineFits (s.reg .r2) bs := by
      rintro ⟨h0, h1⟩
      omega
    refine (step_blocked_response hblocked hr).trans ((applyResponse_line hc).trans ((if_neg hfits).trans ?_))
    exact congrArg Host.Outcome.next (takeFault_eq_respondFault hr)

/-- Settles O49: the block changed `ip` and the status alone, and the fault of the response sets `ip` back. -/
theorem failedSystemCallLeavesTheStateBeforeIt : Obligations.FailedSystemCallLeavesTheStateBeforeIt := by
  rintro s t u id answers c info f hrun hexec ⟨req, hb⟩ hstep hf
  obtain ⟨-, -, -, -, hip, ht⟩ := exec_blocked hrun hexec hb
  subst ht
  have hblocked : State.status { s with
      regs := { s.regs with rip := s.reg .rip + 1 }, status := .blocked req, hostAnswers := answers } =
      .blocked req := rfl
  obtain ⟨-, hu, -⟩ := step_blocked_faulted hblocked hstep hf
  rw [hu, respondFault, hip]
  rfl

end Sys2Proof.Machine

/-! Loading, the host's view, the register indices, and the faults that are left to well-formed instructions. -/

namespace Sys2Proof.Machine

open Sys2Proof.Rules

/-! ## Loading and inspecting -/

/-- Settles O1: the loaded state is the reset state with the program. -/
theorem loadResetsEveryField : Obligations.LoadResetsEveryField := fun p hp =>
  ⟨{ State.reset with program := p }, if_pos hp, fun r => by cases r <;> rfl, rfl, fun _ => rfl, rfl, fun _ => rfl, rfl,
    rfl⟩

/-- Settles O2: the length check of the load. -/
theorem loadRefusesOverlongPrograms : Obligations.LoadRefusesOverlongPrograms :=
  fun _ hp => if_neg (Nat.not_le.mpr hp)

/-- The live entries are `E[1]` to `E[sp]` in order (R38). -/
theorem CallStack.live_getElem? (st : CallStack) {n : Nat} (hn : n < st.sp) :
    st.live[n]? = some (st.slot (n + 1)) := by
  rw [CallStack.live, List.getElem?_map, List.getElem?_range hn, Option.map_some]

theorem CallStack.live_length (st : CallStack) : st.live.length = st.sp := by
  rw [CallStack.live, List.length_map, List.length_range]

/-- The host's view while the run has not ended, and at its end (R38). -/
theorem hostView_of_not_ended {s : State} (h : s.ended = false) : s.hostView = none := by
  cases hstatus : s.status with
  | running | blocked => rw [State.hostView, hstatus]
  | halted | faulted =>
    rw [State.ended, hstatus] at h
    cases h

theorem hostView_of_ended {s : State} (h : s.ended = true) :
    ∃ fault, s.hostView = some (s.viewWith fault) ∧ (s.status = .halted → fault = none) ∧
      ∀ c info f, s.status = .faulted c info f → fault = some (c, info, f) := by
  cases hstatus : s.status with
  | halted => exact ⟨none, by rw [State.hostView, hstatus], fun _ => rfl, nofun⟩
  | faulted c info f =>
    refine ⟨some (c, info, f), by rw [State.hostView, hstatus], nofun, fun _ _ _ h => ?_⟩
    cases h
    rfl
  | running | blocked =>
    rw [State.ended, hstatus] at h
    cases h

/-- Settles O51: the view is of the whole final state, and the exit code is its r1. -/
theorem hostSeesTheFinalState : Obligations.HostSeesTheFinalState := by
  refine fun s => ⟨fun h => ?_, fun h => ?_⟩
  · have hview := hostView_of_not_ended h
    exact ⟨hview, by rw [State.exitCode, hview]; rfl⟩
  · obtain ⟨fault, hview, hhalted, hfaulted⟩ := hostView_of_ended h
    exact ⟨by rw [State.exitCode, hview]; rfl, s.viewWith fault, hview, rfl, rfl, rfl, rfl, s.stack.live_length,
      fun _ hn => s.stack.live_getElem? hn, hhalted, hfaulted⟩

/-- Settles O11: the check of a register operand accepts a Word exactly when some register has it as its index. -/
theorem registerIndexTable : Obligations.RegisterIndexTable := by
  refine ⟨rfl, fun w => ⟨?_, fun ⟨h0, h8⟩ => ?_⟩⟩
  · rintro ⟨r, rfl⟩
    cases r <;> decide
  · cases hr : checkReg w with
    | none =>
      have := checkReg_eq_none.mp hr
      omega
    | some r => exact ⟨r, (checkReg_eq_some.mp hr).symm⟩

/-! ## Well-formed instructions -/

section WellFormed

variable {rd rs imm info : Word} {s : State} {c : FaultCause}

theorem isRegIndex_iff {w : Word} : isRegIndex w = true ↔ 0 ≤ w.toInt ∧ w.toInt ≤ 8 := by
  rw [isRegIndex, Bool.and_eq_true, decide_eq_true_eq, decide_eq_true_eq]

theorem isByteAddr_iff {w : Word} : isByteAddr w = true ↔ byteInBounds w := by
  rw [isByteAddr, Bool.and_eq_true, decide_eq_true_eq, decide_eq_true_eq]

theorem isWordAddr_iff {w : Word} : isWordAddr w = true ↔ wordInBounds w := by
  rw [isWordAddr, Bool.and_eq_true, decide_eq_true_eq, decide_eq_true_eq]

theorem isByteValue_iff {w : Word} :
    isByteValue w = true ↔ ¬(Config.byteMax < w.toInt ∨ w.toInt < Config.byteMin) := by
  rw [isByteValue, Bool.and_eq_true, decide_eq_true_eq, decide_eq_true_eq, not_or, not_lt, not_lt, and_comm]

theorem isSyscallId_iff {w : Word} : isSyscallId w = true ↔ 0 ≤ w.toInt ∧ w.toInt ≤ 5 := by
  rw [isSyscallId, Bool.and_eq_true, decide_eq_true_eq, decide_eq_true_eq]

/-- With a register index as its operand, what a DWORD form raises comes from its operation. -/
theorem dwordForm_raised_of_index {op : AluOp} (hrd : isRegIndex rd = true)
    (h : dwordForm rd imm op s = .raised c info) : ∃ d : Reg, op d (s.reg d) imm s = .raised c info := by
  have hin := isRegIndex_iff.mp hrd
  rcases dwordForm_cases rd imm op s with ⟨d, -, e⟩ | ⟨hbad, -⟩
  · exact ⟨d, e.symm.trans h⟩
  · omega

theorem regForm_raised_of_index {op : AluOp} (hrr : (isRegIndex rd && isRegIndex rs) = true)
    (h : regForm rd rs op s = .raised c info) : ∃ d r : Reg, op d (s.reg d) (s.reg r) s = .raised c info := by
  obtain ⟨hrd, hrs⟩ := Bool.and_eq_true_iff.mp hrr
  have hind := isRegIndex_iff.mp hrd
  have hins := isRegIndex_iff.mp hrs
  rcases regForm_cases rd rs op s with ⟨d, r, -, -, e⟩ | ⟨hbad, -⟩ | ⟨_, -, hbad, -⟩
  · exact ⟨d, r, e.symm.trans h⟩
  · omega
  · omega

theorem unaryForm_raised_of_index {op : Reg → State → HandlerResult} (hrd : isRegIndex rd = true)
    (h : unaryForm rd op s = .raised c info) : ∃ d : Reg, op d s = .raised c info := by
  have hin := isRegIndex_iff.mp hrd
  rcases unaryForm_cases rd op s with ⟨d, -, e⟩ | ⟨hbad, -⟩
  · exact ⟨d, e.symm.trans h⟩
  · omega

/-- A divisor other than 0 raises nothing (R97). -/
theorem aluDiv_ne_raised {d : Reg} {a b : Word} (hb : b ≠ 0) : aluDiv d a b s ≠ .raised c info := by
  rw [aluDiv, if_neg hb]
  nofun

/-- A byte load in bounds raises nothing (R44). -/
theorem loadByte_ne_raised {d : Reg} {a : Word} (ha : byteInBounds a) : loadByte d a s ≠ .raised c info := by
  rw [loadByte, memReadByte, if_pos ha]
  nofun

theorem loadWord_ne_raised {d : Reg} {a : Word} (ha : wordInBounds a) : loadWord d a s ≠ .raised c info := by
  rw [loadWord, memReadWord, if_pos ha]
  nofun

/-- A byte store of a byte value in bounds raises nothing (R46, R128). -/
theorem checkedByteWrite_ne_raised {a v : Word} (hv : ¬(Config.byteMax < v.toInt ∨ v.toInt < Config.byteMin))
    (ha : byteInBounds a) : checkedByteWrite a v s ≠ .raised c info := by
  rw [checkedByteWrite, if_neg hv, memWriteByte, if_pos ha]
  nofun

theorem memWriteWord_ne_raised {a v : Word} (ha : wordInBounds a) : memWriteWord a v s ≠ .raised c info := by
  rw [memWriteWord, if_pos ha]
  nofun

/-- With an id of 0 to 5 INT raises for its string alone (R142). -/
theorem intHandler_raised_of_id {id ip0 : Word} (hid : isSyscallId id = true)
    (h : intHandler id ip0 s = .raised c info) : c = .memoryBounds := by
  have hin := isSyscallId_iff.mp hid
  rcases intHandler_cases id ip0 s with ⟨text, -, e⟩ | ⟨_, -, e⟩
  · rw [e] at h
    rcases systemCall_cases id text ip0 s with ⟨_, -, e'⟩ | ⟨-, e'⟩ | ⟨hbad, -⟩
    · cases e'.symm.trans h
    · cases e'.symm.trans h
    · omega
  · cases e.symm.trans h
    rfl

end WellFormed

/-- The handler of a well-formed instruction raises only what the state decides. -/
theorem mayRaiseWellFormed_of_handlerOf_raised {i : Instr} {ip0 info : Word} {s : State} {c : FaultCause}
    (hi : i.wellFormed = true) (h : handlerOf i ip0 s = .raised c info) : mayRaiseWellFormed i c = true := by
  cases i with
  | movDword | addDword | subDword | mulDword | xorDword | orDword | andDword | notDword | cmpDword =>
    obtain ⟨_, e⟩ := dwordForm_raised_of_index hi h
    cases e
  | movReg | addReg | subReg | mulReg | xorReg | orReg | andReg | notReg | cmpReg =>
    obtain ⟨_, _, e⟩ := regForm_raised_of_index hi h
    cases e
  | divDword =>
    obtain ⟨hrd, himm⟩ := Bool.and_eq_true_iff.mp hi
    obtain ⟨_, e⟩ := dwordForm_raised_of_index hrd h
    exact absurd e (aluDiv_ne_raised (of_decide_eq_true himm))
  | divReg =>
    obtain ⟨_, _, e⟩ := regForm_raised_of_index hi h
    cases aluDiv_raised e
    rfl
  | inc | dec =>
    obtain ⟨_, e⟩ := unaryForm_raised_of_index hi h
    cases e
  | label | jmp | je | jne | jg | jb | halt => cases h
  | retn => exact absurd h retnHandler_ne_raised
  | call =>
    cases callHandler_raised h
    rfl
  | writeByteDword =>
    obtain ⟨haddr, hvalue⟩ := Bool.and_eq_true_iff.mp hi
    exact absurd h (checkedByteWrite_ne_raised (isByteValue_iff.mp hvalue) (isByteAddr_iff.mp haddr))
  | writeByteReg =>
    obtain ⟨_, _, e⟩ := regForm_raised_of_index hi h
    rcases checkedByteWrite_raised e with rfl | rfl <;> rfl
  | writeWordDword => exact absurd h (memWriteWord_ne_raised (isWordAddr_iff.mp hi))
  | writeWordReg =>
    obtain ⟨_, _, e⟩ := regForm_raised_of_index hi h
    cases memWriteWord_raised e
    rfl
  | readByteDword =>
    obtain ⟨hrd, haddr⟩ := Bool.and_eq_true_iff.mp hi
    obtain ⟨_, e⟩ := dwordForm_raised_of_index (op := loadByteAt) hrd h
    exact absurd e (loadByte_ne_raised (isByteAddr_iff.mp haddr))
  | readByteReg =>
    obtain ⟨_, _, e⟩ := regForm_raised_of_index (op := loadByteAt) hi h
    cases loadByte_raised e
    rfl
  | readWordDword =>
    obtain ⟨hrd, haddr⟩ := Bool.and_eq_true_iff.mp hi
    obtain ⟨_, e⟩ := dwordForm_raised_of_index (op := loadWordAt) hrd h
    exact absurd e (loadWord_ne_raised (isWordAddr_iff.mp haddr))
  | readWordReg =>
    obtain ⟨_, _, e⟩ := regForm_raised_of_index (op := loadWordAt) hi h
    cases loadWord_raised e
    rfl
  | push =>
    obtain ⟨_, e⟩ := unaryForm_raised_of_index hi h
    cases pushRegister_raised e
    rfl
  | pop =>
    obtain ⟨_, e⟩ := unaryForm_raised_of_index hi h
    cases popRegister_raised e
    rfl
  | int =>
    cases intHandler_raised_of_id hi h
    rfl

/-- Settles O20: a fault of `exec` is one that the handler raised. -/
theorem wellFormedFaultsDependOnStateOnly : Obligations.WellFormedFaultsDependOnStateOnly := by
  intro i s t c info f hi hrun h hf
  obtain ⟨hraised, -⟩ := exec_faulted hrun h hf
  exact mayRaiseWellFormed_of_handlerOf_raised hi hraised

end Sys2Proof.Machine
